-- ==== Sys2Proof/Word.lean ====
section
/-! DEFINITION. The cell of the machine and its plainest arithmetic (00_scope.md R5 and section 5). -/

namespace Sys2Proof

/-- `CELL_BITS` of rule R5 (decision D1 of the spec, log 2). -/
abbrev cellBits : Nat := 32

/-- A `Cell` of rule R5: a memory cell, a register or the ir. Read as a signed number by `BitVec.toInt`. -/
abbrev Word := BitVec 32

/-- The pc and the fault address: unsigned, `PC_BITS = 9` (10_state.md R13, log 6). -/
abbrev PcWord := BitVec 9

/-- `CELL_MIN` of rule R5. -/
def cellMin : Int := -2147483648

/-- `CELL_MAX` of rule R5. -/
def cellMax : Int := 2147483647

/-- `wrap(v)` of 00_scope.md section 5: the cell congruent to `v` modulo `2^CELL_BITS`. -/
def wrap (v : Int) : Word := BitVec.ofInt 32 v

/-- The integer `v` fits a cell (00_scope.md R5). -/
def fitsCell (v : Int) : Bool := decide (cellMin ≤ v) && decide (v ≤ cellMax)

end Sys2Proof
end

