-- ==== Sys2Proof/Config.lean ====
section
/-! DEFINITION. The implementation parameters (00_scope.md section 4) and the assembler's parameters (30_encoding.md R71, R75). -/

namespace Sys2Proof.Config

/-- `MEM_SIZE` of 00_scope.md R4: cells 0 to 255. -/
def memSize : Nat := 256

/-- `REG_COUNT` of 00_scope.md R4: registers 0 to 3. -/
def regCount : Nat := 4

/-- The parameters of the assembler. The source names neither the comment character (R71, D14) nor the value
of a missing operand (D17): both are arguments, so whatever is said of the assembler holds for every choice.
The data start address and the fixture are the "configurable constants" of R75, at their stated values. -/
structure Asm where
  /-- `COMMENT_CHAR` (R71). -/
  commentChar : Char
  /-- `MISSING_OPERAND_VALUE` (D17). -/
  missingOperand : Nat
  /-- `dataStartAddress` (R75). -/
  dataStart : Nat := 20
  /-- `fixtureValues` (R75). -/
  fixture : List Word := [10, 5, 0]
deriving DecidableEq, Repr

end Sys2Proof.Config
end

