-- ==== Sys2Proof/Syntax.lean ====
section
/-! DEFINITION. The instructions: one constructor for each row of spec/opcode_table.json. The five canonical forms
carry the instruction's name, the eight alias forms (30_encoding.md R61) the suffix of their row. -/

namespace Sys2Proof

/-- An instruction as its word spells it (30_encoding.md section 3, log 11). Operands are the decimal digit groups
of the word, unsigned (R58, R64): `r`, `d`, `s` register indices, `aa` and `a` addresses, `u` JUMP's ignored digit. -/
inductive Instr where
  /-- `0` (40_cycle_and_halt.md R85). -/
  | halt
  /-- `1raa` (41_load_store.md R100). -/
  | load (r aa : Nat)
  /-- `1ra`, LOAD in the 3-digit layout (R61). -/
  | loadAlias3 (r a : Nat)
  /-- `1`, LOAD 0,0 in the degenerate layout (R61). -/
  | loadAlias1
  /-- `2raa` (41_load_store.md R101). -/
  | store (r aa : Nat)
  /-- `2ra`, STORE in the 3-digit layout (R61). -/
  | storeAlias3 (r a : Nat)
  /-- `2`, STORE 0,0 in the degenerate layout (R61). -/
  | storeAlias1
  /-- `3ds` (42_add.md R110). -/
  | add (d s : Nat)
  /-- `3dss`, ADD in the 4-digit layout (R61). -/
  | addAlias4 (d ss : Nat)
  /-- `3`, ADD 0,0 in the degenerate layout (R61). -/
  | addAlias1
  /-- `4uaa` (43_jump.md R120). -/
  | jump (u aa : Nat)
  /-- `4ua`, JUMP in the 3-digit layout (R61). -/
  | jumpAlias3 (u a : Nat)
  /-- `4`, JUMP 0,0 in the degenerate layout (R61). -/
  | jumpAlias1
deriving DecidableEq, Repr

end Sys2Proof
end

