-- ==== Sys2Proof/WellFormed.lean ====
section
/-! DEFINITION. What an encoding can carry: each operand fits the decimal digits its row of spec/opcode_table.json
gives it (30_encoding.md R51, R53, R54, R58). -/

namespace Sys2Proof

/-- One decimal digit. -/
def isDigit (n : Nat) : Bool := decide (n ≤ 9)

/-- Two decimal digits. -/
def isTwoDigits (n : Nat) : Bool := decide (n ≤ 99)

/-- Every operand fits its digits. A well-formed instruction may still fault: a register index 4 to 9 is
well formed (30_encoding.md R60). -/
def Instr.wf : Instr → Bool
  | .halt => true
  | .load r aa => isDigit r && isTwoDigits aa
  | .loadAlias3 r a => isDigit r && isDigit a
  | .loadAlias1 => true
  | .store r aa => isDigit r && isTwoDigits aa
  | .storeAlias3 r a => isDigit r && isDigit a
  | .storeAlias1 => true
  | .add d s => isDigit d && isDigit s
  | .addAlias4 d ss => isDigit d && isTwoDigits ss
  | .addAlias1 => true
  | .jump u aa => isDigit u && isTwoDigits aa
  | .jumpAlias3 u a => isDigit u && isDigit a
  | .jumpAlias1 => true

end Sys2Proof
end

