-- ==== Sys2Proof/Decode.lean ====
section
/-! DEFINITION. The decoder (30_encoding.md sections 1 to 3): total on every cell, an illegal word rejected by name.
After it the encoder of instructions, and the host's reading of a table word. -/

namespace Sys2Proof

/-! ### The three decimal layouts (R52 to R55) -/

/-- The layouts of R52. -/
inductive Layout where
  | degenerate
  | threeDigit
  | fourDigit
deriving DecidableEq, Repr

/-- R52: the layout is chosen by comparing the word, as a signed integer, with 1000 and 100. -/
def layoutOf (w : Word) : Layout :=
  if 1000 ≤ w.toInt then .fourDigit
  else if 100 ≤ w.toInt then .threeDigit
  else .degenerate

/-- The triple `(opcode, operand1, operand2)` of R52. -/
structure Fields where
  opcode : Int
  operand1 : Nat
  operand2 : Nat
deriving DecidableEq, Repr

/-- R53, for a word of 1000 and above. -/
def layout4 (n : Nat) : Fields := ⟨(n / 1000 : Nat), n / 100 % 10, n % 100⟩

/-- R54, for a word from 100 to 999. -/
def layout3 (n : Nat) : Fields := ⟨(n / 100 : Nat), n / 10 % 10, n % 10⟩

/-- R55, for a word below 100: the whole word is the opcode. -/
def layoutDegenerate (v : Int) : Fields := ⟨v, 0, 0⟩

/-- `Decode` of R52. In the first two cases the word is positive, so `toNat` of the signed value is the value. -/
def decodeFields (w : Word) : Fields :=
  match layoutOf w with
  | .fourDigit => layout4 w.toInt.toNat
  | .threeDigit => layout3 w.toInt.toNat
  | .degenerate => layoutDegenerate w.toInt

/-- The instruction classes of R56. -/
inductive Class where
  | halt
  | load
  | store
  | add
  | jump
  | unknown
deriving DecidableEq, Repr

/-- `Class(opcode)` of R56. It looks at the opcode value only. -/
def classOf (opcode : Int) : Class :=
  if opcode = 0 then .halt
  else if opcode = 1 then .load
  else if opcode = 2 then .store
  else if opcode = 3 then .add
  else if opcode = 4 then .jump
  else .unknown

/-! ### Decoding a cell -/

/-- What the decoder answers: an instruction, or the illegal word itself, the `Unknown(word)` of R56. -/
inductive Decoded where
  | instr (i : Instr)
  | unknown (w : Word)
deriving DecidableEq, Repr

/-- The instruction of a word with fields `f` in layout `l`. The opcode's class says which instruction it is,
the layout which row of the opcode map. -/
def instrOf (w : Word) (l : Layout) (f : Fields) : Decoded :=
  match classOf f.opcode, l with
  | .halt, _ => .instr .halt
  | .load, .fourDigit => .instr (.load f.operand1 f.operand2)
  | .load, .threeDigit => .instr (.loadAlias3 f.operand1 f.operand2)
  | .load, .degenerate => .instr .loadAlias1
  | .store, .fourDigit => .instr (.store f.operand1 f.operand2)
  | .store, .threeDigit => .instr (.storeAlias3 f.operand1 f.operand2)
  | .store, .degenerate => .instr .storeAlias1
  | .add, .fourDigit => .instr (.addAlias4 f.operand1 f.operand2)
  | .add, .threeDigit => .instr (.add f.operand1 f.operand2)
  | .add, .degenerate => .instr .addAlias1
  | .jump, .fourDigit => .instr (.jump f.operand1 f.operand2)
  | .jump, .threeDigit => .instr (.jumpAlias3 f.operand1 f.operand2)
  | .jump, .degenerate => .instr .jumpAlias1
  | .unknown, _ => .unknown w

/-- The decoder: total, pure, deterministic (R57). -/
def decode (w : Word) : Decoded := instrOf w (layoutOf w) (decodeFields w)

/-- The word is illegal (R62). -/
def Decoded.isUnknown : Decoded → Bool
  | .instr _ => false
  | .unknown _ => true

/-! ### The encoder of instructions -/

/-- The word of an instruction as a number, from its row of spec/opcode_table.json and the compositions of R51. -/
def encodeNat : Instr → Nat
  | .halt => 0
  | .load r aa => 1000 + r * 100 + aa
  | .loadAlias3 r a => 100 + r * 10 + a
  | .loadAlias1 => 1
  | .store r aa => 2000 + r * 100 + aa
  | .storeAlias3 r a => 200 + r * 10 + a
  | .storeAlias1 => 2
  | .add d s => 300 + d * 10 + s
  | .addAlias4 d ss => 3000 + d * 100 + ss
  | .addAlias1 => 3
  | .jump u aa => 4000 + u * 100 + aa
  | .jumpAlias3 u a => 400 + u * 10 + a
  | .jumpAlias1 => 4

/-- The word of an instruction. -/
def encode (i : Instr) : Word := BitVec.ofNat 32 (encodeNat i)

/-! ### Which row a word falls in -/

/-- The first and last word of an instruction's row: `word_min` and `word_max` of spec/opcode_table.json. -/
def rowRange : Instr → Nat × Nat
  | .halt => (0, 0)
  | .load _ _ => (1000, 1999)
  | .loadAlias3 _ _ => (100, 199)
  | .loadAlias1 => (1, 1)
  | .store _ _ => (2000, 2999)
  | .storeAlias3 _ _ => (200, 299)
  | .storeAlias1 => (2, 2)
  | .add _ _ => (300, 399)
  | .addAlias4 _ _ => (3000, 3999)
  | .addAlias1 => (3, 3)
  | .jump _ _ => (4000, 4999)
  | .jumpAlias3 _ _ => (400, 499)
  | .jumpAlias1 => (4, 4)

/-! ### The host's table words -/

/-- The instruction the decoder reads from a word of the opcode table. The rows are decimal patterns of one cell
(no bits, 30_encoding.md section 3): the number `w` is the cell's value, bit 0 its least significant bit, and
a number that needs more than one cell is no instruction (log 12). Every bit above `_nbits` being 0, `w` alone
says which cell it is. -/
def decodeTableWord (_nbits w : Nat) : Option Instr :=
  if w < 2 ^ cellBits then
    match decode (BitVec.ofNat 32 w) with
    | .instr i => some i
    | .unknown _ => none
  else none

end Sys2Proof
end

