-- ==== Sys2Proof/Machine/State.lean ====
section
/-! DEFINITION. The state of the core (10_state.md): plain data, closed (R19). Its reset value is R160 of
70_reset_and_hazards.md. -/

namespace Sys2Proof.Machine

/-- The four registers by name (10_state.md R10). -/
inductive RegName where
  | r0
  | r1
  | r2
  | r3
deriving DecidableEq, Repr

/-- The register's index, 0 to 3. -/
def RegName.index : RegName → Nat
  | .r0 => 0
  | .r1 => 1
  | .r2 => 2
  | .r3 => 3

/-- The register file, `x[0]` to `x[3]` (10_state.md R10): no register is hardwired, banked or aliased. -/
structure Regs where
  x0 : Word
  x1 : Word
  x2 : Word
  x3 : Word
deriving DecidableEq, Repr

/-- The causes of a fault (60_exceptions.md R130). -/
inductive FaultCause where
  /-- The fetch, when the pc is not in 0 to 255 (R131). -/
  | pcOutOfBounds
  /-- The dispatch, on an illegal word (R132). -/
  | unknownOpcode
  /-- LOAD, STORE and ADD, on a register index above 3 (R133). -/
  | operandIndexOutOfRange
deriving DecidableEq, Repr

/-- The run state `st` (10_state.md R16). -/
inductive RunState where
  | running
  | halted
  | faulted (c : FaultCause)
deriving DecidableEq, Repr

/-- The 256 cells as a list of (address, cell) pairs in canonical form (`Memory.wf`): addresses strictly rising,
below 256, no listed cell 0. An unlisted address reads as 0, the reset contents (10_state.md R18). The unit is
the cell of 32 bits: the memory has no bytes (20_memory.md R32, log 1). -/
abbrev Memory := List (Nat × Word)

/-- The whole state of the core: `{memory, registers, pc, ir}`, the run state and the fault address
(10_state.md, 60_exceptions.md R136). -/
structure State where
  /-- `mem[0..255]` (R18). -/
  mem : Memory
  /-- `x[0..3]` (R10). -/
  x : Regs
  /-- The address of the next word to fetch (R13, R14). -/
  pc : PcWord
  /-- The most recently fetched word (R15). -/
  ir : Word
  /-- The run state (R16). -/
  st : RunState
  /-- `fault_addr`, meaningful only when `st` is Faulted (R136). -/
  faultAddr : PcWord
deriving DecidableEq, Repr

/-- The reasons for which a step of the model could stop outside the machine: THERE ARE NONE. Each fault of the
spec is a state of the machine (`RunState.faulted`, 60_exceptions.md R130), so the step that raises it answers a
next state; no constructor is raised by anyone, which is safe (log 10). -/
inductive Fault : Type
deriving DecidableEq, Repr

/-- The reasons for which the model could refuse an instruction. -/
inductive Refusal where
  /-- An instruction without a meaning. Raised by no arm of `exec`: every instruction has its meaning. Safe. -/
  | notModelled (mnemonic : String)
deriving DecidableEq, Repr

/-- The reset state (70_reset_and_hazards.md R160). The values of `ir` and `faultAddr` are the spec's decisions
D4 and D8 (log 8). -/
def State.reset : State where
  mem := []
  x := ⟨0, 0, 0, 0⟩
  pc := 0
  ir := 0
  st := .running
  faultAddr := 0

end Sys2Proof.Machine
end

