-- ==== Sys2Proof/Machine/Ops.lean ====
section
/-! DEFINITION. The named operations over registers, memory, pc and run state; raising a fault as one operation. -/

namespace Sys2Proof.Machine

/-! ### The register file (10_state.md R10, 42_add.md R113) -/

/-- A read port. -/
def Regs.get (x : Regs) : RegName → Word
  | .r0 => x.x0
  | .r1 => x.x1
  | .r2 => x.x2
  | .r3 => x.x3

/-- The write port. -/
def Regs.set (x : Regs) (i : RegName) (v : Word) : Regs :=
  match i with
  | .r0 => { x with x0 := v }
  | .r1 => { x with x1 := v }
  | .r2 => { x with x2 := v }
  | .r3 => { x with x3 := v }

/-- `x[i]` of 00_scope.md section 5. -/
def State.readReg (s : State) (i : RegName) : Word := s.x.get i

/-- `x[i] <- v` of 00_scope.md section 5. -/
def State.writeReg (s : State) (i : RegName) (v : Word) : State := { s with x := s.x.set i v }

/-! ### The memory (10_state.md R18, 20_memory.md R33, R34) -/

/-- What an unlisted address reads as: the reset contents, 0 (R18). -/
def unlistedCell : Word := 0

/-- The cell at an address. -/
def Memory.read : Memory → Nat → Word
  | [], _ => unlistedCell
  | (b, u) :: m, a => if a = b then u else Memory.read m a

/-- A cell put in front of the cells above it, unless it reads as unlisted. -/
def Memory.cons (a : Nat) (v : Word) (m : Memory) : Memory :=
  if v = unlistedCell then m else (a, v) :: m

/-- The memory with one cell replaced, in canonical form. -/
def Memory.write : Memory → Nat → Word → Memory
  | [], a, v => Memory.cons a v []
  | (b, u) :: m, a, v =>
    if a < b then Memory.cons a v ((b, u) :: m)
    else if a = b then Memory.cons a v m
    else (b, u) :: Memory.write m a v

/-- Canonical from address `lo` on: addresses strictly rising, inside memory, no cell equal to the unlisted one. -/
def Memory.wfFrom : Nat → Memory → Bool
  | _, [] => true
  | lo, (a, v) :: m =>
    decide (lo ≤ a) && decide (a < Config.memSize) && decide (v ≠ unlistedCell) && Memory.wfFrom (a + 1) m

/-- The canonical form of memory. -/
def Memory.wf (m : Memory) : Bool := Memory.wfFrom 0 m

/-- `MemRead(a, 1)` (R33): changes nothing. -/
def State.memRead (s : State) (a : Nat) : Word := Memory.read s.mem a

/-- `MemWrite(a, 1, v)` (R34): changes `mem[a]` and no other state. -/
def State.memWrite (s : State) (a : Nat) (v : Word) : State := { s with mem := Memory.write s.mem a v }

/-! ### The ALU (42_add.md R111) -/

/-- `Add(a, b)`: the exact signed sum, then `wrap`. The wrap is the spec's decision D2 (log 3). -/
def aluAdd (a b : Word) : Word := wrap (a.toInt + b.toInt)

/-! ### Fetch and the pc sequencer (40_cycle_and_halt.md R81, R82; 43_jump.md R120) -/

/-- The bound check of the fetch: the pc is in 0 to 255 (R81). -/
def State.pcInBounds (s : State) : Bool := decide (s.pc.toNat < Config.memSize)

/-- The fetch and the linear advance: `ir <- mem[pc]`, then `pc <- pc + 1` (R81, R82). -/
def State.fetch (s : State) : State := { s with ir := s.memRead s.pc.toNat, pc := s.pc + 1 }

/-- `a`, the address of the instruction in execution. After the fetch it is `pc - 1` (60_exceptions.md R136, log 7). -/
def State.instrAddr (s : State) : PcWord := s.pc - 1

/-- `pc <- target` (R120). A decoded target is at most 99 (30_encoding.md R58), so nothing is cut off (log 6). -/
def State.jumpTo (s : State) (target : Nat) : State := { s with pc := BitVec.ofNat 9 target }

/-! ### The run state (10_state.md R16) -/

/-- `st <- Halted` (40_cycle_and_halt.md R85). -/
def State.halt (s : State) : State := { s with st := .halted }

/-- Taking a fault (60_exceptions.md R130): write the fault record, set `st <- Faulted(c)`, end the step. Nothing
else is saved and control goes nowhere (R140). THERE IS NO RETURN FROM A FAULT (R141): the only way out of Faulted
or Halted is `State.resetFrom`. -/
def State.raise (s : State) (c : FaultCause) (addr : PcWord) : State :=
  { s with st := .faulted c, faultAddr := addr }

/-- The instruction in execution faults: the record is its own address (R136). -/
def State.raiseAtInstr (s : State) (c : FaultCause) : State := s.raise c s.instrAddr

/-- Reset, accepted in any state, always yields the whole reset state, memory included
(70_reset_and_hazards.md R160, decision D12, log 14). -/
def State.resetFrom (_ : State) : State := State.reset

end Sys2Proof.Machine
end

