-- ==== Sys2Proof/Machine/Operands.lean ====
section
/-! DEFINITION. The operand forms: a register index and an absolute direct address (30_encoding.md R64,
41_load_store.md R102). There is no immediate operand. -/

namespace Sys2Proof.Machine

/-- A decoded register index at its use: 0 to 3 name a register, above 3 the use faults (60_exceptions.md R133).
Never wrapped, masked or truncated. -/
def regIndex : Nat → Option RegName
  | 0 => some .r0
  | 1 => some .r1
  | 2 => some .r2
  | 3 => some .r3
  | _ => none

/-- The effective address of a LOAD or STORE is its operand2 itself (41_load_store.md R102); outside memory its use
faults (60_exceptions.md R134). A decoded operand2 is at most 99 and always inside (20_memory.md R30, log 5). -/
def dataAddr (operand2 : Nat) : Option Nat :=
  if operand2 < Config.memSize then some operand2 else none

end Sys2Proof.Machine
end

