-- ==== Sys2Proof/Machine/Flags.lean ====
section
/-! DEFINITION. The core has no flags (10_state.md section 3, R19). The one status word is STATUS (R17), computed
from the run state. -/

namespace Sys2Proof.Machine

/-- `STATUS[1:0]` (R17). -/
def stateCode : RunState → BitVec 2
  | .running => 0
  | .halted => 1
  | .faulted _ => 2

/-- `STATUS[3:2]` (R17, 60_exceptions.md R130). -/
def causeCode : RunState → BitVec 2
  | .running => 0
  | .halted => 0
  | .faulted .pcOutOfBounds => 1
  | .faulted .unknownOpcode => 2
  | .faulted .operandIndexOutOfRange => 3

/-- The status register of R17: read-only to the host, invisible to programs. Its numbers are the spec's decision
D7 (log 15). -/
def statusRegister (st : RunState) : BitVec 4 := causeCode st ++ stateCode st

end Sys2Proof.Machine
end

