-- ==== Sys2Proof/Machine/Add.lean ====
section
/-! DEFINITION. ADD (42_add.md). A meaning acts on the state after the fetch and the advance. -/

namespace Sys2Proof.Machine

/-- ADD (R110): both indices are checked before any access; both registers are read before the write (R113). -/
def addRegs (operand1 operand2 : Nat) (s : State) : State :=
  match regIndex operand1, regIndex operand2 with
  | some d, some r => s.writeReg d (aluAdd (s.readReg d) (s.readReg r))
  | _, _ => s.raiseAtInstr .operandIndexOutOfRange

/-- ADD, `3ds` (R110). -/
def execAdd (d r : Nat) (s : State) : Host.Outcome State Fault Refusal := .next (addRegs d r s)

/-- ADD, `3dss` (R110, 30_encoding.md R61). -/
def execAddAlias4 (d r : Nat) (s : State) : Host.Outcome State Fault Refusal := .next (addRegs d r s)

/-- ADD 0,0, the word 3 (R110, 30_encoding.md R55, R61). -/
def execAddAlias1 (s : State) : Host.Outcome State Fault Refusal := .next (addRegs 0 0 s)

end Sys2Proof.Machine
end

