-- ==== Sys2Proof/Machine/Halt.lean ====
section
/-! DEFINITION. HALT (40_cycle_and_halt.md R85). A meaning acts on the state after the fetch and the advance. -/

namespace Sys2Proof.Machine

/-- HALT, `0` (R85): `st <- Halted`. It cannot fault. -/
def execHalt (s : State) : Host.Outcome State Fault Refusal := .next s.halt

end Sys2Proof.Machine
end

