-- ==== Sys2Proof/Machine/Jump.lean ====
section
/-! DEFINITION. JUMP (43_jump.md R120): the target is absolute, operand1 is ignored and not checked. A meaning acts
on the state after the fetch and the advance, so the jump overwrites the advance. -/

namespace Sys2Proof.Machine

/-- JUMP, `4uaa` (R120). -/
def execJump (_u aa : Nat) (s : State) : Host.Outcome State Fault Refusal := .next (s.jumpTo aa)

/-- JUMP, `4ua` (R120, 30_encoding.md R61). -/
def execJumpAlias3 (_u a : Nat) (s : State) : Host.Outcome State Fault Refusal := .next (s.jumpTo a)

/-- JUMP 0,0, the word 4 (R120, 30_encoding.md R55, R61). -/
def execJumpAlias1 (s : State) : Host.Outcome State Fault Refusal := .next (s.jumpTo 0)

end Sys2Proof.Machine
end

