-- ==== Sys2Proof/Machine/LoadStore.lean ====
section
/-! DEFINITION. LOAD and STORE (41_load_store.md). A meaning acts on the state after the fetch and the advance. -/

namespace Sys2Proof.Machine

/-- LOAD (R100): the index is checked before any access; then `x[operand1] <- mem[operand2]`. -/
def loadCell (operand1 operand2 : Nat) (s : State) : State :=
  match regIndex operand1, dataAddr operand2 with
  | some r, some a => s.writeReg r (s.memRead a)
  | _, _ => s.raiseAtInstr .operandIndexOutOfRange

/-- STORE (R101): the index is checked before any access; then `mem[operand2] <- x[operand1]`. -/
def storeCell (operand1 operand2 : Nat) (s : State) : State :=
  match regIndex operand1, dataAddr operand2 with
  | some r, some a => s.memWrite a (s.readReg r)
  | _, _ => s.raiseAtInstr .operandIndexOutOfRange

/-- LOAD, `1raa` (R100). -/
def execLoad (r aa : Nat) (s : State) : Host.Outcome State Fault Refusal := .next (loadCell r aa s)

/-- LOAD, `1ra` (R100, 30_encoding.md R61). -/
def execLoadAlias3 (r a : Nat) (s : State) : Host.Outcome State Fault Refusal := .next (loadCell r a s)

/-- LOAD 0,0, the word 1 (R100, 30_encoding.md R55, R61). -/
def execLoadAlias1 (s : State) : Host.Outcome State Fault Refusal := .next (loadCell 0 0 s)

/-- STORE, `2raa` (R101). -/
def execStore (r aa : Nat) (s : State) : Host.Outcome State Fault Refusal := .next (storeCell r aa s)

/-- STORE, `2ra` (R101, 30_encoding.md R61). -/
def execStoreAlias3 (r a : Nat) (s : State) : Host.Outcome State Fault Refusal := .next (storeCell r a s)

/-- STORE 0,0, the word 2 (R101, 30_encoding.md R55, R61). -/
def execStoreAlias1 (s : State) : Host.Outcome State Fault Refusal := .next (storeCell 0 0 s)

end Sys2Proof.Machine
end

