-- ==== Sys2Proof/Machine/Dispatch.lean ====
section
/-! DEFINITION. The dispatch (40_cycle_and_halt.md R84): one arm for each row of spec/opcode_table.json. -/

namespace Sys2Proof.Machine

def exec (i : Instr) (s : State) : Host.Outcome State Fault Refusal :=
  match i with
  | .halt => Sys2Proof.Machine.execHalt s
  | .load r aa => Sys2Proof.Machine.execLoad r aa s
  | .loadAlias3 r a => Sys2Proof.Machine.execLoadAlias3 r a s
  | .loadAlias1 => Sys2Proof.Machine.execLoadAlias1 s
  | .store r aa => Sys2Proof.Machine.execStore r aa s
  | .storeAlias3 r a => Sys2Proof.Machine.execStoreAlias3 r a s
  | .storeAlias1 => Sys2Proof.Machine.execStoreAlias1 s
  | .add d r => Sys2Proof.Machine.execAdd d r s
  | .addAlias4 d r => Sys2Proof.Machine.execAddAlias4 d r s
  | .addAlias1 => Sys2Proof.Machine.execAddAlias1 s
  | .jump u aa => Sys2Proof.Machine.execJump u aa s
  | .jumpAlias3 u a => Sys2Proof.Machine.execJumpAlias3 u a s
  | .jumpAlias1 => Sys2Proof.Machine.execJumpAlias1 s

end Sys2Proof.Machine
end

