-- ==== Sys2Proof/Machine/Cycle.lean ====
section
/-! DEFINITION. One pass of the fetch-decode-execute loop (40_cycle_and_halt.md R80). -/

namespace Sys2Proof.Machine

/-- Execute a decoded word on the state after the fetch. An illegal word raises UnknownOpcode, its operands not
examined (60_exceptions.md R132). -/
def execDecoded (d : Decoded) (s : State) : Host.Outcome State Fault Refusal :=
  match d with
  | .instr i => exec i s
  | .unknown _ => .next (s.raiseAtInstr .unknownOpcode)

/-- The step of a running core (R80): the bound check, the fetch and the advance, the decode of `ir`, the execution.
A pc out of bounds raises the fault before anything is fetched, its record the pc itself (R81, 60_exceptions.md R131). -/
def runningCycle (s : State) : Host.Outcome State Fault Refusal :=
  if s.pcInBounds then execDecoded (decode s.fetch.ir) s.fetch
  else .next (s.raise .pcOutOfBounds s.pc)

/-- The step: in Halted and in Faulted the core takes none, and the state stays
(60_exceptions.md R141, 93_implementation_defined.md U10). -/
def cycle (s : State) : Host.Outcome State Fault Refusal :=
  match s.st with
  | .running => runningCycle s
  | .halted => .next s
  | .faulted _ => .next s

/-- A state whose next step fetches the word `w`: `w` in the cell the pc names, the core Running, the pc kept
where it is inside memory and 0 where it is not (log 12). -/
def placeWord (s : State) (w : Nat) : State :=
  let p : PcWord := if s.pcInBounds then s.pc else 0
  { s.memWrite p.toNat (BitVec.ofNat 32 w) with pc := p, st := .running }

end Sys2Proof.Machine
end

