-- ==== Sys2Proof/Machine/Step.lean ====
section
/-! DEFINITION. The step of the machine, and the host's way to place an instruction. -/

namespace Sys2Proof.Machine

/-- One step of the core (40_cycle_and_halt.md R80). -/
def step (s : State) : Host.Outcome State Fault Refusal := cycle s

/-- `s` with the one-cell instruction `w` where the next step fetches (log 12). -/
def State.withFetchWord (s : State) (_nbits w : Nat) : State := placeWord s w

end Sys2Proof.Machine
end

