-- ==== Sys2Proof/Laws/Decode.lean ====
section
/-! SUPPORT. The decoder and the encoder (30_encoding.md R52 to R62). -/

namespace Sys2Proof

/-! ### Cells as numbers -/

theorem word_toInt_ofNat {n : Nat} (h : n < 2147483648) : (BitVec.ofNat 32 n).toInt = n := by
  rw [BitVec.toInt_eq_toNat_cond, BitVec.toNat_ofNat, Nat.mod_eq_of_lt (by omega)]
  exact if_pos (by omega)

/-- A cell of non-negative value `n` is the cell `n`. -/
theorem word_eq_ofNat {w : Word} {n : Nat} (h : w.toInt = n) : w = BitVec.ofNat 32 n := by
  apply BitVec.eq_of_toInt_eq
  have hlt := BitVec.toInt_lt (x := w)
  rw [word_toInt_ofNat (by simp at hlt; omega), h]

/-- An instruction's word is a small number. -/
theorem encodeNat_lt {i : Instr} (h : i.wf = true) : encodeNat i < 5000 := by
  cases i <;> simp [Instr.wf, isDigit, isTwoDigits] at h <;> simp only [encodeNat] <;> omega

theorem encode_toInt {i : Instr} (h : i.wf = true) : (encode i).toInt = encodeNat i :=
  word_toInt_ofNat (by have := encodeNat_lt h; omega)

/-! ### The layouts -/

theorem decode_fourDigit {w : Word} {n : Nat} (h : w.toInt = n) (hn : 1000 ≤ n) :
    decode w = instrOf w .fourDigit (layout4 n) := by
  have hl : layoutOf w = .fourDigit := by unfold layoutOf; rw [if_pos (by omega)]
  simp [decode, decodeFields, hl, h]

theorem decode_threeDigit {w : Word} {n : Nat} (h : w.toInt = n) (hlo : 100 ≤ n) (hhi : n < 1000) :
    decode w = instrOf w .threeDigit (layout3 n) := by
  have hl : layoutOf w = .threeDigit := by unfold layoutOf; rw [if_neg (by omega), if_pos (by omega)]
  simp [decode, decodeFields, hl, h]

theorem decode_degenerate {w : Word} {v : Int} (h : w.toInt = v) (hv : v < 100) :
    decode w = instrOf w .degenerate (layoutDegenerate v) := by
  have hl : layoutOf w = .degenerate := by unfold layoutOf; rw [if_neg (by omega), if_neg (by omega)]
  simp [decode, decodeFields, hl, h]

/-! ### The classes -/

theorem classOf_cases (o : Int) :
    (o = 0 ∧ classOf o = .halt) ∨ (o = 1 ∧ classOf o = .load) ∨ (o = 2 ∧ classOf o = .store) ∨
    (o = 3 ∧ classOf o = .add) ∨ (o = 4 ∧ classOf o = .jump) ∨ ((o < 0 ∨ 5 ≤ o) ∧ classOf o = .unknown) := by
  unfold classOf
  split_ifs <;> simp_all; omega

end Sys2Proof
end

