-- ==== Sys2Proof/Laws/PerInstr.lean ====
section
/-! SUPPORT. Statements for all instructions, one lemma for each constructor. -/

namespace Sys2Proof.Laws

/-! ### The encoder stays inside the instruction's row of spec/opcode_table.json -/

/-- The word of a well-formed instruction lies between `word_min` and `word_max` of its row. -/
def EncodeInRow.Statement (i : Instr) : Prop :=
  i.wf = true → ((rowRange i).1 : Int) ≤ (encode i).toInt ∧ (encode i).toInt ≤ ((rowRange i).2 : Int)

theorem EncodeInRow.halt : EncodeInRow.Statement .halt := by unfold EncodeInRow.Statement; decide

theorem EncodeInRow.load (r aa : Nat) : EncodeInRow.Statement (.load r aa) := by
  intro h; rw [encode_toInt h]
  simp [Instr.wf, isDigit, isTwoDigits] at h; simp only [rowRange, encodeNat]; omega

theorem EncodeInRow.loadAlias3 (r a : Nat) : EncodeInRow.Statement (.loadAlias3 r a) := by
  intro h; rw [encode_toInt h]
  simp [Instr.wf, isDigit] at h; simp only [rowRange, encodeNat]; omega

theorem EncodeInRow.loadAlias1 : EncodeInRow.Statement .loadAlias1 := by unfold EncodeInRow.Statement; decide

theorem EncodeInRow.store (r aa : Nat) : EncodeInRow.Statement (.store r aa) := by
  intro h; rw [encode_toInt h]
  simp [Instr.wf, isDigit, isTwoDigits] at h; simp only [rowRange, encodeNat]; omega

theorem EncodeInRow.storeAlias3 (r a : Nat) : EncodeInRow.Statement (.storeAlias3 r a) := by
  intro h; rw [encode_toInt h]
  simp [Instr.wf, isDigit] at h; simp only [rowRange, encodeNat]; omega

theorem EncodeInRow.storeAlias1 : EncodeInRow.Statement .storeAlias1 := by unfold EncodeInRow.Statement; decide

theorem EncodeInRow.add (d s : Nat) : EncodeInRow.Statement (.add d s) := by
  intro h; rw [encode_toInt h]
  simp [Instr.wf, isDigit] at h; simp only [rowRange, encodeNat]; omega

theorem EncodeInRow.addAlias4 (d ss : Nat) : EncodeInRow.Statement (.addAlias4 d ss) := by
  intro h; rw [encode_toInt h]
  simp [Instr.wf, isDigit, isTwoDigits] at h; simp only [rowRange, encodeNat]; omega

theorem EncodeInRow.addAlias1 : EncodeInRow.Statement .addAlias1 := by unfold EncodeInRow.Statement; decide

theorem EncodeInRow.jump (u aa : Nat) : EncodeInRow.Statement (.jump u aa) := by
  intro h; rw [encode_toInt h]
  simp [Instr.wf, isDigit, isTwoDigits] at h; simp only [rowRange, encodeNat]; omega

theorem EncodeInRow.jumpAlias3 (u a : Nat) : EncodeInRow.Statement (.jumpAlias3 u a) := by
  intro h; rw [encode_toInt h]
  simp [Instr.wf, isDigit] at h; simp only [rowRange, encodeNat]; omega

theorem EncodeInRow.jumpAlias1 : EncodeInRow.Statement .jumpAlias1 := by unfold EncodeInRow.Statement; decide

/-! ### Decoding an encoded instruction gives it back (30_encoding.md R59) -/

/-- Decoding the word of a well-formed instruction gives the instruction. -/
def RoundTrip.Statement (i : Instr) : Prop := i.wf = true → decode (encode i) = .instr i

theorem RoundTrip.halt : RoundTrip.Statement .halt := by unfold RoundTrip.Statement; decide

theorem RoundTrip.load (r aa : Nat) : RoundTrip.Statement (.load r aa) := by
  intro h
  have he := encode_toInt h
  simp [Instr.wf, isDigit, isTwoDigits] at h
  rw [decode_fourDigit he (by simp only [encodeNat]; omega)]
  have h1 : (1000 + r * 100 + aa) / 1000 = 1 := by omega
  have h2 : (1000 + r * 100 + aa) / 100 % 10 = r := by omega
  have h3 : (1000 + r * 100 + aa) % 100 = aa := by omega
  simp [instrOf, layout4, encodeNat, h1, h2, h3, classOf]

theorem RoundTrip.loadAlias3 (r a : Nat) : RoundTrip.Statement (.loadAlias3 r a) := by
  intro h
  have he := encode_toInt h
  simp [Instr.wf, isDigit] at h
  rw [decode_threeDigit he (by simp only [encodeNat]; omega) (by simp only [encodeNat]; omega)]
  have h1 : (100 + r * 10 + a) / 100 = 1 := by omega
  have h2 : (100 + r * 10 + a) / 10 % 10 = r := by omega
  have h3 : (100 + r * 10 + a) % 10 = a := by omega
  simp [instrOf, layout3, encodeNat, h1, h2, h3, classOf]

theorem RoundTrip.loadAlias1 : RoundTrip.Statement .loadAlias1 := by unfold RoundTrip.Statement; decide

theorem RoundTrip.store (r aa : Nat) : RoundTrip.Statement (.store r aa) := by
  intro h
  have he := encode_toInt h
  simp [Instr.wf, isDigit, isTwoDigits] at h
  rw [decode_fourDigit he (by simp only [encodeNat]; omega)]
  have h1 : (2000 + r * 100 + aa) / 1000 = 2 := by omega
  have h2 : (2000 + r * 100 + aa) / 100 % 10 = r := by omega
  have h3 : (2000 + r * 100 + aa) % 100 = aa := by omega
  simp [instrOf, layout4, encodeNat, h1, h2, h3, classOf]

theorem RoundTrip.storeAlias3 (r a : Nat) : RoundTrip.Statement (.storeAlias3 r a) := by
  intro h
  have he := encode_toInt h
  simp [Instr.wf, isDigit] at h
  rw [decode_threeDigit he (by simp only [encodeNat]; omega) (by simp only [encodeNat]; omega)]
  have h1 : (200 + r * 10 + a) / 100 = 2 := by omega
  have h2 : (200 + r * 10 + a) / 10 % 10 = r := by omega
  have h3 : (200 + r * 10 + a) % 10 = a := by omega
  simp [instrOf, layout3, encodeNat, h1, h2, h3, classOf]

theorem RoundTrip.storeAlias1 : RoundTrip.Statement .storeAlias1 := by unfold RoundTrip.Statement; decide

theorem RoundTrip.add (d s : Nat) : RoundTrip.Statement (.add d s) := by
  intro h
  have he := encode_toInt h
  simp [Instr.wf, isDigit] at h
  rw [decode_threeDigit he (by simp only [encodeNat]; omega) (by simp only [encodeNat]; omega)]
  have h1 : (300 + d * 10 + s) / 100 = 3 := by omega
  have h2 : (300 + d * 10 + s) / 10 % 10 = d := by omega
  have h3 : (300 + d * 10 + s) % 10 = s := by omega
  simp [instrOf, layout3, encodeNat, h1, h2, h3, classOf]

theorem RoundTrip.addAlias4 (d ss : Nat) : RoundTrip.Statement (.addAlias4 d ss) := by
  intro h
  have he := encode_toInt h
  simp [Instr.wf, isDigit, isTwoDigits] at h
  rw [decode_fourDigit he (by simp only [encodeNat]; omega)]
  have h1 : (3000 + d * 100 + ss) / 1000 = 3 := by omega
  have h2 : (3000 + d * 100 + ss) / 100 % 10 = d := by omega
  have h3 : (3000 + d * 100 + ss) % 100 = ss := by omega
  simp [instrOf, layout4, encodeNat, h1, h2, h3, classOf]

theorem RoundTrip.addAlias1 : RoundTrip.Statement .addAlias1 := by unfold RoundTrip.Statement; decide

theorem RoundTrip.jump (u aa : Nat) : RoundTrip.Statement (.jump u aa) := by
  intro h
  have he := encode_toInt h
  simp [Instr.wf, isDigit, isTwoDigits] at h
  rw [decode_fourDigit he (by simp only [encodeNat]; omega)]
  have h1 : (4000 + u * 100 + aa) / 1000 = 4 := by omega
  have h2 : (4000 + u * 100 + aa) / 100 % 10 = u := by omega
  have h3 : (4000 + u * 100 + aa) % 100 = aa := by omega
  simp [instrOf, layout4, encodeNat, h1, h2, h3, classOf]

theorem RoundTrip.jumpAlias3 (u a : Nat) : RoundTrip.Statement (.jumpAlias3 u a) := by
  intro h
  have he := encode_toInt h
  simp [Instr.wf, isDigit] at h
  rw [decode_threeDigit he (by simp only [encodeNat]; omega) (by simp only [encodeNat]; omega)]
  have h1 : (400 + u * 10 + a) / 100 = 4 := by omega
  have h2 : (400 + u * 10 + a) / 10 % 10 = u := by omega
  have h3 : (400 + u * 10 + a) % 10 = a := by omega
  simp [instrOf, layout3, encodeNat, h1, h2, h3, classOf]

theorem RoundTrip.jumpAlias1 : RoundTrip.Statement .jumpAlias1 := by unfold RoundTrip.Statement; decide

end Sys2Proof.Laws
end

