-- ==== Sys2Proof/Machine/Loader.lean ====
section
/-! DEFINITION. The host's actions before a run (70_reset_and_hazards.md R161 to R165, R168): they are no steps of
the core (log 13). Reset is `State.resetFrom`. -/

namespace Sys2Proof.Machine

/-- The words of an image into the cells from `a` on, in array order, capped at the memory's size (R161, R162). -/
def Memory.loadFrom : Nat → List Word → Memory → Memory
  | _, [], m => m
  | a, w :: ws, m =>
    if a < Config.memSize then Memory.loadFrom (a + 1) ws (Memory.write m a w) else m

/-- The loader: `mem[i] <- w[i]` for every `i` below 256 the image has, nothing else (R162). It validates nothing
(R163). -/
def State.load (s : State) (image : List Word) : State := { s with mem := Memory.loadFrom 0 image s.mem }

/-- `InputExhausted`, the loader's non-fatal condition: fewer words than cells (R162, 60_exceptions.md R135). -/
def inputExhausted (image : List Word) : Bool := decide (image.length < Config.memSize)

/-- The image of an encoded-word stream, one integer a cell (R161). An integer that fits no cell makes the host
refuse the whole image (R163, decision D13). -/
def imageOfInts : List Int → Option (List Word)
  | [] => some []
  | v :: vs =>
    if fitsCell v then (imageOfInts vs).map (wrap v :: ·) else none

/-- The launch state of an image: reset, then load (R165). -/
def State.launch (image : List Word) : State := State.reset.load image

end Sys2Proof.Machine
end

