-- ==== Sys2Proof/Machine/Assembler.lean ====
section
/-! DEFINITION. The assembler ("Encoder", 30_encoding.md R51, R70 to R76): software around the core that makes
images, no part of the machine. Its open points are arguments, refusals or marked choices (log 17, log 18). A line is
its characters. -/

namespace Sys2Proof.Machine.Asm

/-- The recognized mnemonics (R70). -/
inductive Mnemonic where
  | halt
  | load
  | store
  | add
  | jump
deriving DecidableEq, Repr

/-- R51: the composition of a word. -/
def compose : Mnemonic → Nat → Nat → Nat
  | .halt, _, _ => 0
  | .load, o1, o2 => 1 * 1000 + o1 * 100 + o2
  | .store, o1, o2 => 2 * 1000 + o1 * 100 + o2
  | .add, o1, o2 => 3 * 100 + o1 * 10 + o2
  | .jump, o1, o2 => 4 * 1000 + o1 * 100 + o2

/-- R51: the operand ranges a composition requires. -/
def composable : Mnemonic → Nat → Nat → Bool
  | .halt, _, _ => true
  | .load, o1, o2 => isDigit o1 && isTwoDigits o2
  | .store, o1, o2 => isDigit o1 && isTwoDigits o2
  | .add, o1, o2 => isDigit o1 && isDigit o2
  | .jump, o1, o2 => isDigit o1 && isTwoDigits o2

/-- What becomes of one line (R74). -/
inductive LineResult where
  /-- No token: treated as blank, not an error. -/
  | skipped
  /-- `UnrecognizedMnemonic`: reported, no word. -/
  | unrecognizedMnemonic
  /-- An operand out of range or no unsigned decimal number: reported, no word (D16, 93_implementation_defined.md U7). -/
  | refused
  /-- The composed word; 0 is not written to the output. -/
  | word (w : Nat)
deriving DecidableEq, Repr

/-- The line without its comment: the text before the first comment character (R70). -/
def stripComment (c : Char) : List Char → List Char
  | [] => []
  | x :: xs => if x = c then [] else x :: stripComment c xs

/-- Tokens are separated by white space and commas (R70). -/
def isSeparator (c : Char) : Bool := c.isWhitespace || decide (c = ',')

/-- The token being read put in front of those after it, unless it is empty. -/
def closeToken (current : List Char) (rest : List (List Char)) : List (List Char) :=
  if current.isEmpty then rest else current.reverse :: rest

/-- The tokens of a text; `current` holds, last character first, the token being read. -/
def tokens : List Char → List Char → List (List Char)
  | current, [] => closeToken current []
  | current, x :: xs =>
    if isSeparator x then closeToken current (tokens [] xs) else tokens (x :: current) xs

/-- An unsigned decimal number (R70, 91_not_in_source.md N19). -/
def toNumber (acc : Nat) : List Char → Option Nat
  | [] => some acc
  | x :: xs => if x.isDigit then toNumber (acc * 10 + (x.toNat - '0'.toNat)) xs else none

/-- The mnemonic a token names, in normalized case (R70). -/
def mnemonicOf (t : List Char) : Option Mnemonic :=
  if t = ['H', 'A', 'L', 'T'] then some .halt
  else if t = ['L', 'O', 'A', 'D'] then some .load
  else if t = ['S', 'T', 'O', 'R', 'E'] then some .store
  else if t = ['A', 'D', 'D'] then some .add
  else if t = ['J', 'U', 'M', 'P'] then some .jump
  else none

/-- An operand: absent it takes the missing value (D17). -/
def operandOf (missing : Nat) : Option (List Char) → Option Nat
  | none => some missing
  | some t => toNumber 0 t

/-- A recognized mnemonic with its operand tokens; those after the second are not read (R70; log 17). The tokens
are read by position, the first as operand1, the second as operand2. DESIGN CHOICE (log 18) for the one token of a
line such as `JUMP 20`, which R72 and 91_not_in_source.md N8 leave open: it is operand1, and operand2 is missing. -/
def composeLine (missing : Nat) (m : Mnemonic) (operands : List (List Char)) : LineResult :=
  if m = .halt then .word (compose .halt 0 0)
  else
    match operandOf missing operands[0]?, operandOf missing operands[1]? with
    | some o1, some o2 => if composable m o1 o2 then .word (compose m o1 o2) else .refused
    | _, _ => .refused

/-- One line: comment stripped, case normalized, tokens parsed, word composed (R70, R74). -/
def assembleLine (cfg : Config.Asm) (line : List Char) : LineResult :=
  match tokens [] ((stripComment cfg.commentChar line).map Char.toUpper) with
  | [] => .skipped
  | m :: operands =>
    match mnemonicOf m with
    | none => .unrecognizedMnemonic
    | some mn => composeLine cfg.missingOperand mn operands

/-- The word a line contributes: none for a line that is skipped, reported or refused, and none for the word 0,
so HALT lines are dropped (R74, decision D18). -/
def LineResult.emitted : LineResult → Option Word
  | .skipped => none
  | .unrecognizedMnemonic => none
  | .refused => none
  | .word w => if w = 0 then none else some (BitVec.ofNat 32 w)

/-- What is reported to the operator, line by line (R74). -/
def lineResults (cfg : Config.Asm) (lines : List (List Char)) : List LineResult := lines.map (assembleLine cfg)

/-- The emitted instruction words, in line order (R74). -/
def emittedWords (cfg : Config.Asm) (lines : List (List Char)) : List Word :=
  lines.filterMap fun l => (assembleLine cfg l).emitted

/-- The post-pass: zero words up to the data start, then the fixture (R75). -/
def postPass (cfg : Config.Asm) (emitted : List Word) : List Word :=
  emitted ++ List.replicate (cfg.dataStart - emitted.length) 0 ++ cfg.fixture

/-- The image of a source text (R75, R76). -/
def assemble (cfg : Config.Asm) (lines : List (List Char)) : List Word :=
  postPass cfg (emittedWords cfg lines)

/-- The encoded-word stream: one decimal integer a cell, in address order from 0 (R76, 70_reset_and_hazards.md R161). -/
def stream (image : List Word) : List Int := image.map BitVec.toInt

end Sys2Proof.Machine.Asm
end

