-- ==== Sys2Proof/Machine/Pseudocode.lean ====
section
/-! DEFINITION. The step of 40_cycle_and_halt.md R80 written line by line over `(opcode, operand1, operand2)`, with
no instruction type between: a second reading of the spec to hold the machine against. The machine never calls it. -/

namespace Sys2Proof.Machine.Pseudo

/-- `x[i]`, used only for `i <= 3` (00_scope.md section 5). -/
def regAt (s : State) : Nat → Word
  | 0 => s.x.x0
  | 1 => s.x.x1
  | 2 => s.x.x2
  | _ => s.x.x3

/-- `x[i] <- v`, used only for `i <= 3` (00_scope.md section 5). -/
def setRegAt (s : State) (i : Nat) (v : Word) : State :=
  match i with
  | 0 => { s with x := { s.x with x0 := v } }
  | 1 => { s with x := { s.x with x1 := v } }
  | 2 => { s with x := { s.x with x2 := v } }
  | _ => { s with x := { s.x with x3 := v } }

/-- `fault_addr <- a ; raise Fault(c)` (R80). -/
def faultWith (s : State) (a : PcWord) (c : FaultCause) : State := { s with faultAddr := a, st := .faulted c }

/-- Part 3 of R80, the execution; `a` is the instruction's address, `s` the state after the fetch. -/
def execute (a : PcWord) (f : Fields) (s : State) : State :=
  match classOf f.opcode with
  | .halt => { s with st := .halted }
  | .load =>
    if f.operand1 > 3 then faultWith s a .operandIndexOutOfRange
    else setRegAt s f.operand1 (s.memRead f.operand2)
  | .store =>
    if f.operand1 > 3 then faultWith s a .operandIndexOutOfRange
    else s.memWrite f.operand2 (regAt s f.operand1)
  | .add =>
    if f.operand1 > 3 ∨ f.operand2 > 3 then faultWith s a .operandIndexOutOfRange
    else setRegAt s f.operand1 (aluAdd (regAt s f.operand1) (regAt s f.operand2))
  | .jump => { s with pc := BitVec.ofNat 9 f.operand2 }
  | .unknown => faultWith s a .unknownOpcode

/-- `Step()` of R80 for a Running core. -/
def runningStep (s : State) : State :=
  if s.pc.toNat > 255 then faultWith s s.pc .pcOutOfBounds
  else
    let w := s.memRead s.pc.toNat
    execute s.pc (decodeFields w) { s with ir := w, pc := s.pc + 1 }

/-- The step in any state: none is taken unless the core is Running (60_exceptions.md R141). -/
def nextState (s : State) : State := if s.st = .running then runningStep s else s

/-- `NextPc(a, class, operand2)` of 43_jump.md R121. -/
def nextPc (a : PcWord) (c : Class) (operand2 : Nat) : PcWord :=
  if c = .jump then BitVec.ofNat 9 operand2 else a + 1

end Sys2Proof.Machine.Pseudo
end

