-- ==== Sys2Proof/Machine/Run.lean ====
section
/-! DEFINITION. A run (40_cycle_and_halt.md R87). The core has no step limit, so the executor runs under fuel and
tells "out of fuel" from an end state (decision D19, log 16). -/

namespace Sys2Proof.Machine

/-- How a fuelled run stands: the final state of the run, or the state in which the fuel gave out. -/
inductive RunEnd where
  | ended (s : State)
  | outOfFuel (s : State)
deriving DecidableEq, Repr

/-- The steps of a run while the core is Running, at most `fuel` of them. -/
def run : Nat → State → Host.Outcome RunEnd Fault Refusal
  | 0, s => if s.st = .running then .next (.outOfFuel s) else .next (.ended s)
  | n + 1, s =>
    if s.st = .running then
      match step s with
      | .next t => run n t
      | .fault r => .fault r
      | .refused r => .refused r
    else .next (.ended s)

/-- `k` steps of the state alone; a stopped core keeps its state. -/
def stepMany : Nat → State → Host.Outcome State Fault Refusal
  | 0, s => .next s
  | k + 1, s =>
    match step s with
    | .next t => stepMany k t
    | .fault r => .fault r
    | .refused r => .refused r

end Sys2Proof.Machine
end

