-- ==== Sys2Proof/Safety.lean ====
section
/-! DEFINITION. What claims are stated in: a state about to run an instruction, the invariant of the machine,
a run that is safe. -/

namespace Sys2Proof.Machine

/-- The core runs and its pc is inside memory: the next step fetches (40_cycle_and_halt.md R81). -/
def State.fetches (s : State) : Prop := s.st = .running ∧ s.pc.toNat ≤ 255

/-- The word the next step fetches. -/
def State.nextWord (s : State) : Word := s.memRead s.pc.toNat

/-- The next step of `s` runs the instruction `i`. -/
def State.runs (s : State) (i : Instr) : Prop := s.fetches ∧ decode s.nextWord = .instr i

/-- Nothing but the memory differs. -/
def sameButMemory (s t : State) : Prop :=
  t.x = s.x ∧ t.pc = s.pc ∧ t.ir = s.ir ∧ t.st = s.st ∧ t.faultAddr = s.faultAddr

/-- Nothing but the registers differs. -/
def sameButRegisters (s t : State) : Prop :=
  t.mem = s.mem ∧ t.pc = s.pc ∧ t.ir = s.ir ∧ t.st = s.st ∧ t.faultAddr = s.faultAddr

/-- Every cell reads as before. -/
def sameCells (s t : State) : Prop := ∀ a : Nat, t.memRead a = s.memRead a

/-- The instruction is a LOAD with these operands, in any of its encodings (30_encoding.md R60, R61). -/
def isLoad (i : Instr) (r a : Nat) : Prop :=
  i = .load r a ∨ i = .loadAlias3 r a ∨ (i = .loadAlias1 ∧ r = 0 ∧ a = 0)

/-- The instruction is a STORE with these operands, in any of its encodings. -/
def isStore (i : Instr) (r a : Nat) : Prop :=
  i = .store r a ∨ i = .storeAlias3 r a ∨ (i = .storeAlias1 ∧ r = 0 ∧ a = 0)

/-- The instruction is an ADD with these operands, in any of its encodings. -/
def isAdd (i : Instr) (d r : Nat) : Prop :=
  i = .add d r ∨ i = .addAlias4 d r ∨ (i = .addAlias1 ∧ d = 0 ∧ r = 0)

/-- The instruction is a JUMP with these operands, in any of its encodings. -/
def isJump (i : Instr) (u a : Nat) : Prop :=
  i = .jump u a ∨ i = .jumpAlias3 u a ∨ (i = .jumpAlias1 ∧ u = 0 ∧ a = 0)

/-- The instruction writes this register, by 10_state.md R11. -/
def writesReg (i : Instr) (q : RegName) : Prop := (∃ a, isLoad i q.index a) ∨ (∃ r, isAdd i q.index r)

/-- The instruction reads this register, by 10_state.md R11. -/
def readsReg (i : Instr) (q : RegName) : Prop :=
  (∃ a, isStore i q.index a) ∨ (∃ r, isAdd i q.index r) ∨ (∃ d, isAdd i d q.index)

/-- A register index the instruction uses is above 3 (60_exceptions.md R133). HALT and JUMP use none. -/
def badIndex : Instr → Bool
  | .halt => false
  | .load r _ => decide (3 < r)
  | .loadAlias3 r _ => decide (3 < r)
  | .loadAlias1 => false
  | .store r _ => decide (3 < r)
  | .storeAlias3 r _ => decide (3 < r)
  | .storeAlias1 => false
  | .add d r => decide (3 < d) || decide (3 < r)
  | .addAlias4 d r => decide (3 < d) || decide (3 < r)
  | .addAlias1 => false
  | .jump _ _ => false
  | .jumpAlias3 _ _ => false
  | .jumpAlias1 => false

/-- The word is an instruction that uses a register index above 3. -/
def wordUsesBadIndex (w : Word) : Bool :=
  match decode w with
  | .instr i => badIndex i
  | .unknown _ => false

/-- What the run state says of the other state (10_state.md section 8, 60_exceptions.md R131 to R133, R136):
the fault record is 0 until a fault; a core that halted holds the HALT word; a core that faulted holds the pc,
the record and the word its cause gives. -/
def State.recordAgrees (s : State) : Prop :=
  match s.st with
  | .running => s.faultAddr = 0
  | .halted => s.faultAddr = 0 ∧ s.ir = 0 ∧ 1 ≤ s.pc.toNat
  | .faulted .pcOutOfBounds => s.pc.toNat = 256 ∧ s.faultAddr.toNat = 256
  | .faulted .unknownOpcode => s.pc.toNat = s.faultAddr.toNat + 1 ∧ (decode s.ir).isUnknown = true
  | .faulted .operandIndexOutOfRange => s.pc.toNat = s.faultAddr.toNat + 1 ∧ wordUsesBadIndex s.ir = true

/-- The invariant of the machine: the pc is in 0 to 256 (10_state.md R13), the memory is canonical, the record
agrees with the run state. -/
def State.Inv (s : State) : Prop := s.pc.toNat ≤ 256 ∧ s.mem.wf = true ∧ s.recordAgrees

/-- The illegal words (30_encoding.md R62). -/
def isIllegal (v : Int) : Prop := v < 0 ∨ (5 ≤ v ∧ v ≤ 99) ∨ (500 ≤ v ∧ v ≤ 999) ∨ 5000 ≤ v

/-- The words that raise OperandIndexOutOfRange, as 60_exceptions.md R133 lists them. -/
def isBadIndexWord (v : Int) : Prop :=
  (1400 ≤ v ∧ v ≤ 1999) ∨ (140 ≤ v ∧ v ≤ 199) ∨ (2400 ≤ v ∧ v ≤ 2999) ∨ (240 ≤ v ∧ v ≤ 299) ∨
  (300 ≤ v ∧ v ≤ 399 ∧ (3 < v / 10 % 10 ∨ 3 < v % 10)) ∨
  (3000 ≤ v ∧ v ≤ 3999 ∧ (3 < v / 100 % 10 ∨ 3 < v % 100))

/-- The core has faulted. -/
def State.isFaulted (s : State) : Prop := ∃ c, s.st = .faulted c

/-- A safe run: no state of it has faulted. -/
def RunsSafely (s : State) : Prop := ∀ n t, stepMany n s = .next t → ¬ t.isFaulted

/-- The premise for claims about the original program: this sum fits a cell (93_implementation_defined.md U2). -/
def sumFits (a b : Word) : Prop := cellMin ≤ a.toInt + b.toInt ∧ a.toInt + b.toInt ≤ cellMax

end Sys2Proof.Machine
end

