-- ==== Sys2Proof/Certificates/Slice0/Obligations.lean ====
section
/-! DEFINITION. The statements for the provers. A "clause of decision D<n>" rests on the spec's own decision, named
in the docstring with its log entry. Where a statement ranges over stopped states too, that their step answers the
same state is log 10 (60_exceptions.md R141, U10 of 93_implementation_defined.md). -/

open Sys2Proof Sys2Proof.Machine

/-! ### The step -/

/-- 40_cycle_and_halt.md section 1: a step whose fetched word decodes to `i` is `exec i` on the state after the
fetch, and the fetch changes `ir` to the word and `pc` to `pc + 1`, and nothing else. -/
def Obligations.StepRunsTheDecodedInstruction : Prop :=
  ∀ (s : State) (i : Instr), s.runs i →
    step s = exec i s.fetch ∧
    s.fetch.ir = s.memRead s.pc.toNat ∧ s.fetch.pc.toNat = s.pc.toNat + 1 ∧
    s.fetch.mem = s.mem ∧ s.fetch.x = s.x ∧ s.fetch.st = s.st ∧ s.fetch.faultAddr = s.faultAddr

/-- R81: the bound check first; when it fails nothing is read and the step ends in Faulted(PcOutOfBounds); only the
pc 256 can fail it; when it passes `ir` takes the whole cell, whatever it holds. -/
def Obligations.FetchChecksTheBoundThenReads : Prop :=
  (∀ s : State, s.st = .running → 255 < s.pc.toNat →
    ∃ t, step s = .next t ∧ t.st = .faulted .pcOutOfBounds ∧
      t.ir = s.ir ∧ t.pc = s.pc ∧ t.x = s.x ∧ t.mem = s.mem) ∧
  (∀ s : State, s.Inv → 255 < s.pc.toNat → s.pc.toNat = 256) ∧
  (∀ s : State, s.st = .running → s.pc.toNat ≤ 255 →
    ∃ t, step s = .next t ∧ t.ir = s.memRead s.pc.toNat)

/-- R14 and R82: the pc is 0 at reset; a fetched word that is no JUMP leaves `a + 1`, also when it halts or faults; a
JUMP leaves its operand2; at 256 the next step faults and keeps 256. -/
def Obligations.PcAdvancesOrJumps : Prop :=
  State.reset.pc = 0 ∧
  (∀ s : State, s.fetches →
    step s = execDecoded (decode s.nextWord) s.fetch ∧
    s.fetch.pc.toNat = s.pc.toNat + 1 ∧ 1 ≤ s.fetch.pc.toNat ∧ s.fetch.pc.toNat ≤ 256 ∧
    ∃ t, step s = .next t ∧
      (∀ i u a, decode s.nextWord = .instr i → isJump i u a → t.pc.toNat = a) ∧
      ((∀ i u a, decode s.nextWord = .instr i → ¬ isJump i u a) → t.pc.toNat = s.pc.toNat + 1)) ∧
  (∀ s : State, s.st = .running → s.pc.toNat = 256 →
    ∃ t, step s = .next t ∧ t.st = .faulted .pcOutOfBounds ∧ t.pc = s.pc ∧ t.ir = s.ir)

/-- 60_exceptions.md R141 with U10 of 93_implementation_defined.md: Halted and Faulted are absorbing, and only
reset, which always gives the reset state (decision D12, log 14), leads out. That a step of a stopped core is taken at
all, and answers the same state, is the form of log 10. -/
def Obligations.StoppedCoreStaysUntilReset : Prop :=
  ∀ (s : State) (n : Nat), s.st ≠ .running →
    stepMany n s = .next s ∧ run n s = .next (.ended s) ∧ s.resetFrom = State.reset

/-- The step is total: every state has a next state, with no fault of the model and no refusal (log 10). -/
def Obligations.EveryStepAnswersNext : Prop :=
  ∀ s : State, ∃ t, step s = .next t

/-- R62 and R132: exactly these words are illegal, 10 and 5 among them; fetching one faults with the word in `ir`,
`pc = a + 1`, `fault_addr = a`, no register and no cell changed, and nothing else raises the cause. -/
def Obligations.IllegalWordsFaultUnknownOpcode : Prop :=
  (∀ w : Word, (decode w).isUnknown = true ↔ isIllegal w.toInt) ∧
  isIllegal 10 ∧ isIllegal 5 ∧
  (∀ s : State, s.fetches → isIllegal s.nextWord.toInt →
    ∃ t, step s = .next t ∧ t.st = .faulted .unknownOpcode ∧ t.ir = s.nextWord ∧
      t.pc.toNat = s.pc.toNat + 1 ∧ t.faultAddr = s.pc ∧ t.x = s.x ∧ t.mem = s.mem) ∧
  (∀ s t : State, s.st = .running → step s = .next t → t.st = .faulted .unknownOpcode →
    s.fetches ∧ isIllegal s.nextWord.toInt)

/-- 60_exceptions.md R133, decision D5 (log 4): exactly the listed words raise OperandIndexOutOfRange, and the
instruction has no effect but the fetch's and the fault record. -/
def Obligations.BadIndexWordsFault : Prop :=
  (∀ s : State, s.fetches → isBadIndexWord s.nextWord.toInt →
    step s = .next { s with ir := s.nextWord, pc := s.pc + 1,
                            st := .faulted .operandIndexOutOfRange, faultAddr := s.pc }) ∧
  (∀ s t : State, s.st = .running → step s = .next t → t.st = .faulted .operandIndexOutOfRange →
    s.fetches ∧ isBadIndexWord s.nextWord.toInt)

/-- 60_exceptions.md sections 1 and 2 (R130, R138), fault record by decision D8 (log 9): a step that faults changes
the run state and the record, no register and no cell; `ir` and `pc` are the fetch's, or kept when nothing was
fetched. A step that does not fault leaves the record alone. -/
def Obligations.FaultsArePrecise : Prop :=
  ∀ s t : State, s.st = .running → step s = .next t →
    (∀ c, t.st = .faulted c →
      t.x = s.x ∧ t.mem = s.mem ∧ t.faultAddr = s.pc ∧
      ((c = .pcOutOfBounds ∧ 255 < s.pc.toNat ∧ t.pc = s.pc ∧ t.ir = s.ir) ∨
       (c ≠ .pcOutOfBounds ∧ s.pc.toNat ≤ 255 ∧ t.pc.toNat = s.pc.toNat + 1 ∧ t.ir = s.nextWord))) ∧
    (¬ t.isFaulted → t.faultAddr = s.faultAddr)

/-- The machine is the pseudocode of 40_cycle_and_halt.md R80 (its operand checks are decision D5, log 4; its record
is decision D8, log 9): for every Running state the step's next state is the one the pseudocode computes from
`(opcode, operand1, operand2)`. R80 is defined only for Running: that the step of a stopped core answers the same
state is log 10 (60_exceptions.md R141, U10 of 93_implementation_defined.md). -/
def Obligations.StepIsThePseudocode : Prop :=
  ∀ s : State, step s = .next (Pseudo.nextState s)

/-! ### The instructions: result, completion and frame -/

/-- 40_cycle_and_halt.md section 3 (R85): HALT completes in every state, sets `st` to Halted, changes nothing else. -/
def Obligations.HaltSetsHalted : Prop :=
  ∀ s : State, ∃ t, exec .halt s = .next t ∧ t.st = .halted ∧
    t.mem = s.mem ∧ t.x = s.x ∧ t.pc = s.pc ∧ t.ir = s.ir ∧ t.faultAddr = s.faultAddr

/-- 40_cycle_and_halt.md section 3 (R85): the only word that decodes to HALT is 0, and the step that fetches it ends
Halted with `ir = 0` and `pc = a + 1`, without a fault, also at address 255. -/
def Obligations.WordZeroHalts : Prop :=
  (∀ w : Word, decode w = .instr .halt ↔ w = 0) ∧
  (∀ s : State, s.fetches → s.nextWord = 0 →
    ∃ t, step s = .next t ∧ t.st = .halted ∧ t.ir = 0 ∧ t.pc.toNat = s.pc.toNat + 1 ∧
      t.x = s.x ∧ t.mem = s.mem ∧ t.faultAddr = s.faultAddr)

/-- 41_load_store.md section 2 (R100): every encoding of LOAD with a register index 0 to 3 completes,
`x[operand1] <- mem[operand2]`, and changes nothing else. -/
def Obligations.LoadCopiesTheCellToTheRegister : Prop :=
  ∀ (i : Instr) (q : RegName) (a : Nat) (s : State), isLoad i q.index a → a ≤ 255 →
    ∃ t, exec i s = .next t ∧ t.readReg q = s.memRead a ∧
      (∀ p : RegName, p ≠ q → t.readReg p = s.readReg p) ∧
      t.mem = s.mem ∧ t.pc = s.pc ∧ t.ir = s.ir ∧ t.st = s.st ∧ t.faultAddr = s.faultAddr

/-- 41_load_store.md section 3 (R101): every encoding of STORE with a register index 0 to 3 completes,
`mem[operand2] <- x[operand1]`, and changes nothing else. Reading the cell back needs a canonical memory, which
every step keeps. -/
def Obligations.StoreCopiesTheRegisterToTheCell : Prop :=
  ∀ (i : Instr) (q : RegName) (a : Nat) (s : State), isStore i q.index a → a ≤ 255 →
    ∃ t, exec i s = .next t ∧
      (s.mem.wf = true → t.memRead a = s.readReg q ∧ t.mem.wf = true) ∧
      (∀ b : Nat, b ≠ a → t.memRead b = s.memRead b) ∧
      t.x = s.x ∧ t.pc = s.pc ∧ t.ir = s.ir ∧ t.st = s.st ∧ t.faultAddr = s.faultAddr

/-- 42_add.md section 1 (R110): every encoding of ADD with register indices 0 to 3 completes and writes the
destination with the signed sum of the two registers, both read before the write: the exact sum where it fits a
cell, and the wrapped sum always (the wrap is decision D2, log 3). Nothing else changes. -/
def Obligations.AddWritesTheSum : Prop :=
  ∀ (i : Instr) (d r : RegName) (s : State), isAdd i d.index r.index →
    ∃ t, exec i s = .next t ∧
      (sumFits (s.readReg d) (s.readReg r) →
        (t.readReg d).toInt = (s.readReg d).toInt + (s.readReg r).toInt) ∧
      t.readReg d = wrap ((s.readReg d).toInt + (s.readReg r).toInt) ∧
      (∀ p : RegName, p ≠ d → t.readReg p = s.readReg p) ∧
      t.mem = s.mem ∧ t.pc = s.pc ∧ t.ir = s.ir ∧ t.st = s.st ∧ t.faultAddr = s.faultAddr

/-- 43_jump.md section 1 (R120): every encoding of JUMP completes whatever its operand1 and sets the pc to its
operand2, which an encoding can make 0 to 99; nothing else changes. -/
def Obligations.JumpSetsThePc : Prop :=
  ∀ (i : Instr) (u a : Nat) (s : State), isJump i u a → a ≤ 99 →
    ∃ t, exec i s = .next t ∧ t.pc.toNat = a ∧
      t.mem = s.mem ∧ t.x = s.x ∧ t.ir = s.ir ∧ t.st = s.st ∧ t.faultAddr = s.faultAddr

/-- Decision D5 (92_eei_decisions.md, log 4): LOAD and STORE with operand1 above 3, and ADD with operand1 or operand2
above 3, in every encoding, take the fault and have no other effect. The record is the instruction's address,
`pc - 1` after the fetch (decision D8, log 7, log 9). -/
def Obligations.RegisterIndexAboveThreeFaults : Prop :=
  ∀ (i : Instr) (o1 o2 : Nat) (s : State),
    ((isLoad i o1 o2 ∧ 3 < o1) ∨ (isStore i o1 o2 ∧ 3 < o1) ∨ (isAdd i o1 o2 ∧ (3 < o1 ∨ 3 < o2))) →
    exec i s = .next { s with st := .faulted .operandIndexOutOfRange, faultAddr := s.pc - 1 }

/-- The frame of LOAD and ADD, for every operand, faulting or not: only the destination register may change, every
cell reads as before, `pc` and `ir` stay, and `st` and the record stay unless an index is out of range. For an operand2
of LOAD from 256 on, which no word decodes to, it is the model's choice of log 5 (R134, decision D6). -/
def Obligations.FrameOfLoadAndAdd : Prop :=
  ∀ (i : Instr) (o1 o2 : Nat) (s t : State), (isLoad i o1 o2 ∨ isAdd i o1 o2) → exec i s = .next t →
    (∀ p : RegName, p.index ≠ o1 → t.readReg p = s.readReg p) ∧
    sameCells s t ∧ t.pc = s.pc ∧ t.ir = s.ir ∧
    (badIndex i = false → o2 ≤ 255 → t.st = s.st ∧ t.faultAddr = s.faultAddr) ∧
    (badIndex i = true → t.x = s.x)

/-- The frame of STORE, for every operand, faulting or not: every register stays; every cell but the one at the
effective address `dataAddr operand2` reads as before, and every cell does where the form stores nothing. That
`dataAddr` gives no address for an operand2 from 256 on, which no word decodes to, so that every cell stays there, is
the model's choice of log 5 (DESIGN CHOICE; 60_exceptions.md R134, decision D6). -/
def Obligations.FrameOfStore : Prop :=
  ∀ (i : Instr) (o1 o2 : Nat) (s t : State), isStore i o1 o2 → exec i s = .next t →
    t.x = s.x ∧ t.pc = s.pc ∧ t.ir = s.ir ∧
    (∀ e : Nat, dataAddr o2 = some e → ∀ b : Nat, b ≠ e → t.memRead b = s.memRead b) ∧
    (badIndex i = true ∨ dataAddr o2 = none → sameCells s t) ∧
    (badIndex i = false → o2 ≤ 255 → t.st = s.st ∧ t.faultAddr = s.faultAddr)

/-- The frame of HALT and JUMP: no register, no cell, no `ir` and no record changes; HALT keeps the pc, JUMP keeps
the run state. -/
def Obligations.FrameOfHaltAndJump : Prop :=
  ∀ (i : Instr) (s t : State), (i = .halt ∨ ∃ u a, isJump i u a) → exec i s = .next t →
    (∀ p : RegName, t.readReg p = s.readReg p) ∧ sameCells s t ∧ t.ir = s.ir ∧ t.faultAddr = s.faultAddr ∧
    (i = .halt → t.pc = s.pc) ∧ (i ≠ .halt → t.st = s.st)

/-- R102: LOAD and STORE have the one addressing mode, absolute direct. A decoded operand2 is 0 to 99 and is itself
the address; the whole cell moves, unextended; no register but LOAD's destination is modified. -/
def Obligations.AddressingIsAbsoluteDirect : Prop :=
  (∀ (s : State) (i : Instr) (q : RegName) (a : Nat), s.runs i → isLoad i q.index a →
    a ≤ 99 ∧ ∃ t, step s = .next t ∧ t.readReg q = s.memRead a ∧
      (∀ p : RegName, p ≠ q → t.readReg p = s.readReg p) ∧ sameCells s t) ∧
  (∀ (s : State) (i : Instr) (q : RegName) (a : Nat), s.runs i → s.mem.wf = true → isStore i q.index a →
    a ≤ 99 ∧ ∃ t, step s = .next t ∧ t.memRead a = s.readReg q ∧
      (∀ b : Nat, b ≠ a → t.memRead b = s.memRead b) ∧ (∀ p : RegName, t.readReg p = s.readReg p))

/-- 42_add.md section 2 (R111): the adder is commutative and associative with 0 neutral, gives the exact signed sum
where that fits a cell, and is the unsigned sum modulo `2^CELL_BITS`. Width and wrap are decisions D1 and D2
(log 2, log 3). -/
def Obligations.AdderLaws : Prop :=
  (∀ a b : Word, aluAdd a b = aluAdd b a) ∧
  (∀ a b c : Word, aluAdd (aluAdd a b) c = aluAdd a (aluAdd b c)) ∧
  (∀ a : Word, aluAdd a 0 = a) ∧
  (∀ a b : Word, sumFits a b → (aluAdd a b).toInt = a.toInt + b.toInt) ∧
  (∀ a b : Word, (aluAdd a b).toNat = (a.toNat + b.toNat) % 2 ^ cellBits)

/-! ### The decoder and the encoder -/

/-- The opcode map of 30_encoding.md section 3, row by row. -/
def Obligations.OpcodeMap : Prop :=
  ∀ w : Word,
    (w.toInt = 0 → decode w = .instr .halt) ∧
    (w.toInt = 1 → decode w = .instr .loadAlias1) ∧
    (w.toInt = 2 → decode w = .instr .storeAlias1) ∧
    (w.toInt = 3 → decode w = .instr .addAlias1) ∧
    (w.toInt = 4 → decode w = .instr .jumpAlias1) ∧
    (∀ o1 o2 : Nat, o1 ≤ 9 → o2 ≤ 9 →
      (w.toInt = 100 + 10 * o1 + o2 → decode w = .instr (.loadAlias3 o1 o2)) ∧
      (w.toInt = 200 + 10 * o1 + o2 → decode w = .instr (.storeAlias3 o1 o2)) ∧
      (w.toInt = 300 + 10 * o1 + o2 → decode w = .instr (.add o1 o2)) ∧
      (w.toInt = 400 + 10 * o1 + o2 → decode w = .instr (.jumpAlias3 o1 o2))) ∧
    (∀ o1 o2 : Nat, o1 ≤ 9 → o2 ≤ 99 →
      (w.toInt = 1000 + 100 * o1 + o2 → decode w = .instr (.load o1 o2)) ∧
      (w.toInt = 2000 + 100 * o1 + o2 → decode w = .instr (.store o1 o2)) ∧
      (w.toInt = 3000 + 100 * o1 + o2 → decode w = .instr (.addAlias4 o1 o2)) ∧
      (w.toInt = 4000 + 100 * o1 + o2 → decode w = .instr (.jump o1 o2))) ∧
    (isIllegal w.toInt → decode w = .unknown w)

/-- 30_encoding.md R58: the ranges of the decoder's outputs over every cell, layout by layout. -/
def Obligations.DecoderOutputRanges : Prop :=
  ∀ w : Word,
    (decodeFields w).operand1 ≤ 9 ∧ (decodeFields w).operand2 ≤ 99 ∧
    (w.toInt < 100 → decodeFields w = ⟨w.toInt, 0, 0⟩) ∧
    (100 ≤ w.toInt → w.toInt < 1000 →
      1 ≤ (decodeFields w).opcode ∧ (decodeFields w).opcode ≤ 9 ∧ (decodeFields w).operand2 ≤ 9) ∧
    (1000 ≤ w.toInt → 1 ≤ (decodeFields w).opcode ∧ (decodeFields w).opcode ≤ 2147483)

/-- R84: the dispatch is on the opcode value alone, one arm for each, with the decoded operands; and no arm tests a
register or a cell to decide what to do: two running states with the same pc and the same fetched word go to the
same run state, pc and ir, whatever their registers and other cells hold. -/
def Obligations.DispatchOnTheOpcodeAlone : Prop :=
  (∀ w : Word,
    ((decodeFields w).opcode = 0 ↔ decode w = .instr .halt) ∧
    ((decodeFields w).opcode = 1 ↔
      ∃ i, decode w = .instr i ∧ isLoad i (decodeFields w).operand1 (decodeFields w).operand2) ∧
    ((decodeFields w).opcode = 2 ↔
      ∃ i, decode w = .instr i ∧ isStore i (decodeFields w).operand1 (decodeFields w).operand2) ∧
    ((decodeFields w).opcode = 3 ↔
      ∃ i, decode w = .instr i ∧ isAdd i (decodeFields w).operand1 (decodeFields w).operand2) ∧
    ((decodeFields w).opcode = 4 ↔
      ∃ i, decode w = .instr i ∧ isJump i (decodeFields w).operand1 (decodeFields w).operand2) ∧
    (((decodeFields w).opcode < 0 ∨ 5 ≤ (decodeFields w).opcode) ↔ decode w = .unknown w)) ∧
  (∀ s t : State, s.fetches → decode s.nextWord = .unknown s.nextWord → step s = .next t →
    t.st = .faulted .unknownOpcode) ∧
  (∀ s s' t t' : State, s.fetches → s'.fetches → s'.pc = s.pc → s'.nextWord = s.nextWord →
    step s = .next t → step s' = .next t' → t'.st = t.st ∧ t'.pc = t.pc ∧ t'.ir = t.ir)

/-- 30_encoding.md R59: decoding the word of a well-formed instruction gives the instruction, with every operand at
every value its digits admit, HALT included. That an alias word gives back an instruction of its own is the model's
choice of log 11. -/
def Obligations.DecodeOfEncode : Prop :=
  ∀ i : Instr, i.wf = true → decode (encode i) = .instr i

/-- The other direction: a word that decodes to an instruction is that instruction's one word, and the instruction is
well formed. That a word is its instruction's ONE word is the model's choice of log 11 (DESIGN CHOICE): an alias word
decodes to a constructor of its own, so no two words decode to one term of `Instr`. By 30_encoding.md R61 several
words still are one instruction of the core: 1, 100 and 1000 all execute as LOAD 0,0. -/
def Obligations.EncodeOfDecode : Prop :=
  ∀ (w : Word) (i : Instr), decode w = .instr i → i.wf = true ∧ encode i = w

/-- The encoder stays inside the instruction's row of spec/opcode_table.json. -/
def Obligations.EncodedWordsLieInTheirRow : Prop :=
  ∀ i : Instr, Sys2Proof.Laws.EncodeInRow.Statement i

/-- Words of 95_test_vectors.md section 2, written out in digits. -/
def Obligations.WordsWrittenOut : Prop :=
  decode 0 = .instr .halt ∧ decode 1120 = .instr (.load 1 20) ∧ decode 2011 = .instr (.store 0 11) ∧
  decode 312 = .instr (.add 1 2) ∧ decode 4003 = .instr (.jump 0 3) ∧ decode 137 = .instr (.loadAlias3 3 7) ∧
  decode 3102 = .instr (.addAlias4 1 2) ∧ decode 2 = .instr .storeAlias1 ∧ decode 12345 = .unknown 12345

/-- R51: the composed words, their ranges, and that each decodes to the canonical instruction it was composed for. -/
def Obligations.ComposedWordsAreCanonical : Prop :=
  (∀ o1 o2 : Nat, Asm.compose .halt o1 o2 = 0 * 100 ∧ decode (BitVec.ofNat 32 0) = .instr .halt) ∧
  (∀ o1 o2 : Nat, o1 ≤ 9 → o2 ≤ 99 →
    Asm.compose .load o1 o2 = 1 * 1000 + o1 * 100 + o2 ∧
    1000 ≤ Asm.compose .load o1 o2 ∧ Asm.compose .load o1 o2 ≤ 1999 ∧
    decode (BitVec.ofNat 32 (Asm.compose .load o1 o2)) = .instr (.load o1 o2) ∧
    Asm.compose .store o1 o2 = 2 * 1000 + o1 * 100 + o2 ∧
    2000 ≤ Asm.compose .store o1 o2 ∧ Asm.compose .store o1 o2 ≤ 2999 ∧
    decode (BitVec.ofNat 32 (Asm.compose .store o1 o2)) = .instr (.store o1 o2) ∧
    Asm.compose .jump o1 o2 = 4 * 1000 + o1 * 100 + o2 ∧
    4000 ≤ Asm.compose .jump o1 o2 ∧ Asm.compose .jump o1 o2 ≤ 4999 ∧
    decode (BitVec.ofNat 32 (Asm.compose .jump o1 o2)) = .instr (.jump o1 o2)) ∧
  (∀ o1 o2 : Nat, o1 ≤ 9 → o2 ≤ 9 →
    Asm.compose .add o1 o2 = 3 * 100 + o1 * 10 + o2 ∧
    300 ≤ Asm.compose .add o1 o2 ∧ Asm.compose .add o1 o2 ≤ 399 ∧
    decode (BitVec.ofNat 32 (Asm.compose .add o1 o2)) = .instr (.add o1 o2))

/-! ### The whole machine -/

/-- The reset state has the invariant. -/
def Obligations.ResetHasTheInvariant : Prop := State.reset.Inv

/-- Every step keeps the invariant: the pc in 0 to 256, the memory canonical, and the fault record, `ir` and `pc` as
the run state says (10_state.md section 8; the record is decision D8, log 9; the step of a stopped core is log 10). -/
def Obligations.StepKeepsTheInvariant : Prop :=
  ∀ s t : State, s.Inv → step s = .next t → t.Inv

/-- Every state of every run from a launch state has the invariant, whatever the image (70_reset_and_hazards.md R165). -/
def Obligations.RunsFromLaunchKeepTheInvariant : Prop :=
  ∀ (image : List Word) (n : Nat) (t : State), stepMany n (State.launch image) = .next t → t.Inv

/-- R11: which instructions touch the registers. A register changes only in a step that runs a LOAD or an ADD whose
destination it is; what a step does depends on no register but those the instruction reads (STORE its source, ADD
both its operands, HALT, LOAD and JUMP none); a register index is a decoded operand, at most 9 as operand1 and at
most 99 as operand2 of ADD, and one above 3 is a fault, never an access. -/
def Obligations.RegistersReadAndWritten : Prop :=
  (∀ (s t : State) (q : RegName), step s = .next t → t.readReg q ≠ s.readReg q → ∃ i, s.runs i ∧ writesReg i q) ∧
  (∀ (s s' t t' : State) (i : Instr), s.runs i → sameButRegisters s s' →
    (∀ q : RegName, readsReg i q → s'.readReg q = s.readReg q) →
    step s = .next t → step s' = .next t' →
    sameButRegisters t t' ∧ ∀ q : RegName, writesReg i q → t'.readReg q = t.readReg q) ∧
  (∀ (s : State) (i : Instr) (o1 o2 : Nat), s.runs i →
    (isLoad i o1 o2 ∨ isStore i o1 o2 → o1 ≤ 9) ∧ (isAdd i o1 o2 → o1 ≤ 9 ∧ o2 ≤ 99)) ∧
  (∀ (s : State) (i : Instr), s.runs i → badIndex i = true →
    ∃ t, step s = .next t ∧ t.st = .faulted .operandIndexOutOfRange ∧ t.x = s.x ∧ t.mem = s.mem)

/-- R34: the write primitive sets the one cell and changes no other cell and no other state; and only STORE issues
it: a cell changes only in a step that runs a STORE to it. -/
def Obligations.OnlyStoreWritesMemory : Prop :=
  (∀ (s : State) (a : Nat) (v : Word), s.mem.wf = true → a ≤ 255 →
    (s.memWrite a v).memRead a = v ∧ (∀ b : Nat, b ≠ a → (s.memWrite a v).memRead b = s.memRead b) ∧
    sameButMemory s (s.memWrite a v) ∧ (s.memWrite a v).mem.wf = true) ∧
  (∀ (s t : State) (a : Nat), step s = .next t → t.memRead a ≠ s.memRead a →
    ∃ i r, s.runs i ∧ isStore i r a)

/-- 20_memory.md R31: no step writes a cell from 100 on, a JUMP goes to 0 to 99, and no step reads a cell from 100 on
but by its fetch: two states that differ only in such cells, the fetched one aside, go to states that differ only
in the same cells. -/
def Obligations.ReachOfDataAccesses : Prop :=
  (∀ (s t : State) (a : Nat), step s = .next t → 100 ≤ a → t.memRead a = s.memRead a) ∧
  (∀ (s t : State) (i : Instr) (u a : Nat), s.runs i → isJump i u a → step s = .next t → t.pc.toNat ≤ 99) ∧
  (∀ s s' t t' : State, s.mem.wf = true → s'.mem.wf = true → sameButMemory s s' →
    (∀ a : Nat, a ≤ 99 → s'.memRead a = s.memRead a) → s'.nextWord = s.nextWord →
    step s = .next t → step s' = .next t' →
    sameButMemory t t' ∧ ∀ a : Nat, a ≤ 99 → t'.memRead a = t.memRead a)

/-- 40_cycle_and_halt.md R88: HALT is the only instruction that acts on the run state, faults aside; no instruction
writes `ir`, and none reads it: changing it before the execution changes nothing else after. -/
def Obligations.OnlyHaltActsOnTheRunState : Prop :=
  (∀ (i : Instr) (s t : State), i.wf = true → exec i s = .next t →
    t.ir = s.ir ∧
    (t.st = s.st ∨ (i = .halt ∧ t.st = .halted) ∨
      (badIndex i = true ∧ t.st = .faulted .operandIndexOutOfRange))) ∧
  (∀ (i : Instr) (s t : State) (w : Word), exec i s = .next t → exec i { s with ir := w } = .next { t with ir := w })

/-- 20_memory.md R40: the step that runs a STORE at `a` leaves the word it was fetched as in `ir`; storing to `a`
replaces its own word for later fetches; storing to `a + 1` is what the next step fetches. -/
def Obligations.StoresAreSeenByTheNextFetch : Prop :=
  ∀ (s t : State) (i : Instr) (q : RegName) (b : Nat),
    s.runs i → s.mem.wf = true → isStore i q.index b → step s = .next t →
    t.ir = s.nextWord ∧
    (b = s.pc.toNat → t.memRead s.pc.toNat = s.readReg q) ∧
    (b = s.pc.toNat + 1 → t.fetches ∧ t.nextWord = s.readReg q ∧
      ∃ t', step t = .next t' ∧ t'.ir = s.readReg q)

/-- A run under fuel (40_cycle_and_halt.md R87; fuel is decision D19, log 16): an end state is stopped, is reached by
at most `n` steps, and more fuel gives the same end; out of fuel, the core still runs after `n` steps. -/
def Obligations.FuelledRunIsTheRun : Prop :=
  ∀ (n : Nat) (s t : State),
    (run n s = .next (.ended t) →
      t.st ≠ .running ∧ (∃ k, k ≤ n ∧ stepMany k s = .next t) ∧ ∀ m, n ≤ m → run m s = .next (.ended t)) ∧
    (run n s = .next (.outOfFuel t) → t.st = .running ∧ stepMany n s = .next t)

/-! ### Reset, the host interface, the status register -/

/-- 70_reset_and_hazards.md section 1 (R160): the reset state, every cell 0 included. The values of `ir` and the fault
address are decisions D4 and D8 (log 8). -/
def Obligations.ResetState : Prop :=
  State.reset.pc = 0 ∧ State.reset.st = .running ∧ State.reset.ir = 0 ∧ State.reset.faultAddr = 0 ∧
  (∀ q : RegName, State.reset.readReg q = 0) ∧ (∀ a : Nat, State.reset.memRead a = 0) ∧
  statusRegister State.reset.st = 0

/-- R12: all four registers are 0 at reset and in every launch state. -/
def Obligations.RegistersAreZeroAtLaunch : Prop :=
  (∀ q : RegName, State.reset.readReg q = 0) ∧
  (∀ (image : List Word) (q : RegName), (State.launch image).readReg q = 0)

/-- R162: the loader sets `mem[i]` to `w[i]` for every `i` below both the image's length and 256, and nothing else;
after a short image the rest is 0; words from 256 on are ignored; an empty image leaves the memory all zero. -/
def Obligations.LoaderSetsTheCells : Prop :=
  (∀ (s : State) (image : List Word) (a : Nat), s.mem.wf = true →
    (∀ w, image[a]? = some w → a < 256 → (s.load image).memRead a = w) ∧
    (image.length ≤ a ∨ 256 ≤ a → (s.load image).memRead a = s.memRead a) ∧
    sameButMemory s (s.load image)) ∧
  (∀ (image : List Word) (a : Nat), image.length ≤ a → (State.launch image).memRead a = 0) ∧
  (∀ a : Nat, (State.launch []).memRead a = 0)

/-- 70_reset_and_hazards.md R163, decision D13 (log 13): an image of integers is refused exactly when one of them
fits no cell; otherwise each cell has the integer's value. -/
def Obligations.ImagesOfIntegers : Prop :=
  ∀ vs : List Int,
    (imageOfInts vs = none ↔ ∃ v, v ∈ vs ∧ (v < cellMin ∨ cellMax < v)) ∧
    (∀ ws, imageOfInts vs = some ws → ws.map BitVec.toInt = vs)

/-- 10_state.md R17, decision D7 (log 15): the status register's values; the state code is never 3, and the cause code
is not zero exactly when the state code is 2. -/
def Obligations.StatusRegisterCodes : Prop :=
  statusRegister .running = 0 ∧ statusRegister .halted = 1 ∧ statusRegister (.faulted .pcOutOfBounds) = 6 ∧
  statusRegister (.faulted .unknownOpcode) = 10 ∧ statusRegister (.faulted .operandIndexOutOfRange) = 14 ∧
  ∀ st : RunState,
    (statusRegister st).extractLsb' 0 2 ≠ (3 : BitVec 2) ∧
    ((statusRegister st).extractLsb' 2 2 ≠ (0 : BitVec 2) ↔ (statusRegister st).extractLsb' 0 2 = (2 : BitVec 2))

/-! ### The assembler (toolchain) -/

/-- 30_encoding.md R74 (the drop of zero words is decision D18, log 17): every emitted word decodes to a canonical
instruction that is not HALT; a HALT line, a blank line, an unrecognized mnemonic contribute nothing. -/
def Obligations.AssemblerEmitsCanonicalWords : Prop :=
  (∀ (cfg : Config.Asm) (lines : List (List Char)) (w : Word), w ∈ Asm.emittedWords cfg lines →
    w ≠ 0 ∧ ∃ i, decode w = .instr i ∧ i.wf = true ∧
      ∃ o1 o2, i = .load o1 o2 ∨ i = .store o1 o2 ∨ i = .add o1 o2 ∨ i = .jump o1 o2) ∧
  (∀ (missing : Nat) (operands : List (List Char)), (Asm.composeLine missing .halt operands).emitted = none) ∧
  Asm.LineResult.skipped.emitted = none ∧ Asm.LineResult.unrecognizedMnemonic.emitted = none

/-- 30_encoding.md R75, at the stated constants: up to 20 emitted words the image is the words, zeros to address 19,
then 10, 5, 0 at 20, 21, 22, in all 23; above 20 the three words follow directly. -/
def Obligations.AssemblerPadsAndAppendsTheFixture : Prop :=
  ∀ (c : Char) (m : Nat) (ws : List Word),
    (ws.length ≤ 20 →
      (Asm.postPass ⟨c, m, 20, [10, 5, 0]⟩ ws).length = 23 ∧
      (∀ a : Nat, a < ws.length → (Asm.postPass ⟨c, m, 20, [10, 5, 0]⟩ ws)[a]? = ws[a]?) ∧
      (∀ a : Nat, ws.length ≤ a → a < 20 → (Asm.postPass ⟨c, m, 20, [10, 5, 0]⟩ ws)[a]? = some 0) ∧
      (Asm.postPass ⟨c, m, 20, [10, 5, 0]⟩ ws)[20]? = some 10 ∧
      (Asm.postPass ⟨c, m, 20, [10, 5, 0]⟩ ws)[21]? = some 5 ∧
      (Asm.postPass ⟨c, m, 20, [10, 5, 0]⟩ ws)[22]? = some 0) ∧
    (20 < ws.length → Asm.postPass ⟨c, m, 20, [10, 5, 0]⟩ ws = ws ++ [10, 5, 0])
end

