-- ==== Sys2Proof/Laws/State.lean ====
section
/-! SUPPORT. One lemma for each field and each update of State, and the accessors through each update. -/

namespace Sys2Proof.Machine

@[simp] theorem State.writeReg_mem (s : State) (i : RegName) (v : Word) : (s.writeReg i v).mem = s.mem := rfl
@[simp] theorem State.writeReg_x (s : State) (i : RegName) (v : Word) : (s.writeReg i v).x = s.x.set i v := rfl
@[simp] theorem State.writeReg_pc (s : State) (i : RegName) (v : Word) : (s.writeReg i v).pc = s.pc := rfl
@[simp] theorem State.writeReg_ir (s : State) (i : RegName) (v : Word) : (s.writeReg i v).ir = s.ir := rfl
@[simp] theorem State.writeReg_st (s : State) (i : RegName) (v : Word) : (s.writeReg i v).st = s.st := rfl
@[simp] theorem State.writeReg_faultAddr (s : State) (i : RegName) (v : Word) : (s.writeReg i v).faultAddr = s.faultAddr := rfl
@[simp] theorem State.writeReg_memRead (s : State) (i : RegName) (v : Word) (b : Nat) : (s.writeReg i v).memRead b = s.memRead b := rfl

@[simp] theorem State.memWrite_mem (s : State) (a : Nat) (v : Word) : (s.memWrite a v).mem = Memory.write s.mem a v := rfl
@[simp] theorem State.memWrite_x (s : State) (a : Nat) (v : Word) : (s.memWrite a v).x = s.x := rfl
@[simp] theorem State.memWrite_pc (s : State) (a : Nat) (v : Word) : (s.memWrite a v).pc = s.pc := rfl
@[simp] theorem State.memWrite_ir (s : State) (a : Nat) (v : Word) : (s.memWrite a v).ir = s.ir := rfl
@[simp] theorem State.memWrite_st (s : State) (a : Nat) (v : Word) : (s.memWrite a v).st = s.st := rfl
@[simp] theorem State.memWrite_faultAddr (s : State) (a : Nat) (v : Word) : (s.memWrite a v).faultAddr = s.faultAddr := rfl
@[simp] theorem State.memWrite_readReg (s : State) (a : Nat) (v : Word) (q : RegName) : (s.memWrite a v).readReg q = s.readReg q := rfl

@[simp] theorem State.fetch_mem (s : State) : (s.fetch).mem = s.mem := rfl
@[simp] theorem State.fetch_x (s : State) : (s.fetch).x = s.x := rfl
@[simp] theorem State.fetch_pc (s : State) : (s.fetch).pc = s.pc + 1 := rfl
@[simp] theorem State.fetch_ir (s : State) : (s.fetch).ir = s.memRead s.pc.toNat := rfl
@[simp] theorem State.fetch_st (s : State) : (s.fetch).st = s.st := rfl
@[simp] theorem State.fetch_faultAddr (s : State) : (s.fetch).faultAddr = s.faultAddr := rfl
@[simp] theorem State.fetch_memRead (s : State) (b : Nat) : (s.fetch).memRead b = s.memRead b := rfl
@[simp] theorem State.fetch_readReg (s : State) (q : RegName) : (s.fetch).readReg q = s.readReg q := rfl

@[simp] theorem State.jumpTo_mem (s : State) (t : Nat) : (s.jumpTo t).mem = s.mem := rfl
@[simp] theorem State.jumpTo_x (s : State) (t : Nat) : (s.jumpTo t).x = s.x := rfl
@[simp] theorem State.jumpTo_pc (s : State) (t : Nat) : (s.jumpTo t).pc = BitVec.ofNat 9 t := rfl
@[simp] theorem State.jumpTo_ir (s : State) (t : Nat) : (s.jumpTo t).ir = s.ir := rfl
@[simp] theorem State.jumpTo_st (s : State) (t : Nat) : (s.jumpTo t).st = s.st := rfl
@[simp] theorem State.jumpTo_faultAddr (s : State) (t : Nat) : (s.jumpTo t).faultAddr = s.faultAddr := rfl
@[simp] theorem State.jumpTo_memRead (s : State) (t : Nat) (b : Nat) : (s.jumpTo t).memRead b = s.memRead b := rfl
@[simp] theorem State.jumpTo_readReg (s : State) (t : Nat) (q : RegName) : (s.jumpTo t).readReg q = s.readReg q := rfl

@[simp] theorem State.halt_mem (s : State) : (s.halt).mem = s.mem := rfl
@[simp] theorem State.halt_x (s : State) : (s.halt).x = s.x := rfl
@[simp] theorem State.halt_pc (s : State) : (s.halt).pc = s.pc := rfl
@[simp] theorem State.halt_ir (s : State) : (s.halt).ir = s.ir := rfl
@[simp] theorem State.halt_st (s : State) : (s.halt).st = .halted := rfl
@[simp] theorem State.halt_faultAddr (s : State) : (s.halt).faultAddr = s.faultAddr := rfl
@[simp] theorem State.halt_memRead (s : State) (b : Nat) : (s.halt).memRead b = s.memRead b := rfl
@[simp] theorem State.halt_readReg (s : State) (q : RegName) : (s.halt).readReg q = s.readReg q := rfl

@[simp] theorem State.raise_mem (s : State) (c : FaultCause) (a : PcWord) : (s.raise c a).mem = s.mem := rfl
@[simp] theorem State.raise_x (s : State) (c : FaultCause) (a : PcWord) : (s.raise c a).x = s.x := rfl
@[simp] theorem State.raise_pc (s : State) (c : FaultCause) (a : PcWord) : (s.raise c a).pc = s.pc := rfl
@[simp] theorem State.raise_ir (s : State) (c : FaultCause) (a : PcWord) : (s.raise c a).ir = s.ir := rfl
@[simp] theorem State.raise_st (s : State) (c : FaultCause) (a : PcWord) : (s.raise c a).st = .faulted c := rfl
@[simp] theorem State.raise_faultAddr (s : State) (c : FaultCause) (a : PcWord) : (s.raise c a).faultAddr = a := rfl
@[simp] theorem State.raise_memRead (s : State) (c : FaultCause) (a : PcWord) (b : Nat) : (s.raise c a).memRead b = s.memRead b := rfl
@[simp] theorem State.raise_readReg (s : State) (c : FaultCause) (a : PcWord) (q : RegName) : (s.raise c a).readReg q = s.readReg q := rfl

@[simp] theorem State.raiseAtInstr_mem (s : State) (c : FaultCause) : (s.raiseAtInstr c).mem = s.mem := rfl
@[simp] theorem State.raiseAtInstr_x (s : State) (c : FaultCause) : (s.raiseAtInstr c).x = s.x := rfl
@[simp] theorem State.raiseAtInstr_pc (s : State) (c : FaultCause) : (s.raiseAtInstr c).pc = s.pc := rfl
@[simp] theorem State.raiseAtInstr_ir (s : State) (c : FaultCause) : (s.raiseAtInstr c).ir = s.ir := rfl
@[simp] theorem State.raiseAtInstr_st (s : State) (c : FaultCause) : (s.raiseAtInstr c).st = .faulted c := rfl
@[simp] theorem State.raiseAtInstr_faultAddr (s : State) (c : FaultCause) : (s.raiseAtInstr c).faultAddr = s.instrAddr := rfl
@[simp] theorem State.raiseAtInstr_memRead (s : State) (c : FaultCause) (b : Nat) : (s.raiseAtInstr c).memRead b = s.memRead b := rfl
@[simp] theorem State.raiseAtInstr_readReg (s : State) (c : FaultCause) (q : RegName) : (s.raiseAtInstr c).readReg q = s.readReg q := rfl

@[simp] theorem State.load_mem (s : State) (w : List Word) : (s.load w).mem = Memory.loadFrom 0 w s.mem := rfl
@[simp] theorem State.load_x (s : State) (w : List Word) : (s.load w).x = s.x := rfl
@[simp] theorem State.load_pc (s : State) (w : List Word) : (s.load w).pc = s.pc := rfl
@[simp] theorem State.load_ir (s : State) (w : List Word) : (s.load w).ir = s.ir := rfl
@[simp] theorem State.load_st (s : State) (w : List Word) : (s.load w).st = s.st := rfl
@[simp] theorem State.load_faultAddr (s : State) (w : List Word) : (s.load w).faultAddr = s.faultAddr := rfl
@[simp] theorem State.load_readReg (s : State) (w : List Word) (q : RegName) : (s.load w).readReg q = s.readReg q := rfl

/-- A state is its fields. -/
theorem State.ext_fields {s t : State} (hm : t.mem = s.mem) (hx : t.x = s.x) (hp : t.pc = s.pc) (hi : t.ir = s.ir)
    (hs : t.st = s.st) (hf : t.faultAddr = s.faultAddr) : t = s := by
  cases s; cases t; simp_all

end Sys2Proof.Machine
end

