-- ==== Sys2Proof/Laws/Memory.lean ====
section
/-! SUPPORT. The memory: read after write, and that every operation keeps the canonical form. -/

namespace Sys2Proof.Machine

/-! ### The canonical form -/

theorem Memory.wfFrom_cons {lo a : Nat} {v : Word} {m : Memory} :
    Memory.wfFrom lo ((a, v) :: m) = true ↔ lo ≤ a ∧ a < 256 ∧ v ≠ 0 ∧ Memory.wfFrom (a + 1) m = true := by
  simp only [Memory.wfFrom, Bool.and_eq_true, decide_eq_true_eq, and_assoc]
  exact Iff.rfl

theorem Memory.wfFrom_mono {lo lo' : Nat} {m : Memory} (hle : lo' ≤ lo) (h : Memory.wfFrom lo m = true) :
    Memory.wfFrom lo' m = true := by
  cases m with
  | nil => rfl
  | cons p m =>
    obtain ⟨a, v⟩ := p
    rw [Memory.wfFrom_cons] at h ⊢
    exact ⟨by omega, h.2⟩

/-- A canonical memory reads as unlisted below its first address. -/
theorem Memory.read_below {lo a : Nat} {m : Memory} (h : Memory.wfFrom lo m = true) (hlt : a < lo) :
    Memory.read m a = 0 := by
  induction m generalizing lo with
  | nil => rfl
  | cons p m ih =>
    obtain ⟨b, u⟩ := p
    rw [Memory.wfFrom_cons] at h
    have hne : a ≠ b := by omega
    simpa [Memory.read, hne] using ih h.2.2.2 (by omega)

/-- A canonical memory lists nothing outside memory. -/
theorem Memory.read_outside {lo a : Nat} {m : Memory} (h : Memory.wfFrom lo m = true) (hge : 256 ≤ a) :
    Memory.read m a = 0 := by
  induction m generalizing lo with
  | nil => rfl
  | cons p m ih =>
    obtain ⟨b, u⟩ := p
    rw [Memory.wfFrom_cons] at h
    have hne : a ≠ b := by omega
    simpa [Memory.read, hne] using ih h.2.2.2

/-! ### Read after write -/

theorem Memory.read_cons_self {a : Nat} {v : Word} {m : Memory} (h : Memory.read m a = 0) :
    Memory.read (Memory.cons a v m) a = v := by
  unfold Memory.cons
  split
  · next hv => rw [h]; exact hv.symm
  · simp [Memory.read]

theorem Memory.read_cons_other {a b : Nat} {v : Word} {m : Memory} (h : b ≠ a) :
    Memory.read (Memory.cons a v m) b = Memory.read m b := by
  unfold Memory.cons
  split
  · rfl
  · simp [Memory.read, h]

theorem Memory.read_write_self_from {lo a : Nat} {v : Word} {m : Memory} (h : Memory.wfFrom lo m = true) :
    Memory.read (Memory.write m a v) a = v := by
  induction m generalizing lo with
  | nil => exact Memory.read_cons_self rfl
  | cons p m ih =>
    obtain ⟨b, u⟩ := p
    have hc := Memory.wfFrom_cons.mp h
    unfold Memory.write
    split
    · next hlt =>
      exact Memory.read_cons_self (Memory.read_below (lo := b) (Memory.wfFrom_cons.mpr ⟨le_refl b, hc.2⟩) hlt)
    · split
      · next heq => subst heq; exact Memory.read_cons_self (Memory.read_below hc.2.2.2 (Nat.lt_succ_self a))
      · next hne => simpa [Memory.read, hne] using ih hc.2.2.2

/-- A cell written reads as the value written. -/
theorem Memory.read_write_self {a : Nat} {v : Word} {m : Memory} (h : Memory.wf m = true) :
    Memory.read (Memory.write m a v) a = v := Memory.read_write_self_from h

/-- A write leaves every other cell alone, canonical form or not. -/
theorem Memory.read_write_other {a b : Nat} {v : Word} (m : Memory) (h : b ≠ a) :
    Memory.read (Memory.write m a v) b = Memory.read m b := by
  induction m with
  | nil => exact Memory.read_cons_other h
  | cons p m ih =>
    obtain ⟨c, u⟩ := p
    unfold Memory.write
    split
    · exact Memory.read_cons_other h
    · split
      · next heq => subst heq; rw [Memory.read_cons_other h]; simp [Memory.read, h]
      · by_cases hbc : b = c
        · simp [Memory.read, hbc]
        · simp [Memory.read, hbc, ih]

/-! ### Every operation keeps the canonical form -/

theorem Memory.wfFrom_consCell {lo a : Nat} {v : Word} {m : Memory} (hlo : lo ≤ a) (ha : a < 256)
    (h : Memory.wfFrom (a + 1) m = true) : Memory.wfFrom lo (Memory.cons a v m) = true := by
  unfold Memory.cons
  split
  · exact Memory.wfFrom_mono (by omega) h
  · next hv => exact Memory.wfFrom_cons.mpr ⟨hlo, ha, hv, h⟩

theorem Memory.wfFrom_write {lo a : Nat} {v : Word} {m : Memory} (hlo : lo ≤ a) (ha : a < 256)
    (h : Memory.wfFrom lo m = true) : Memory.wfFrom lo (Memory.write m a v) = true := by
  induction m generalizing lo with
  | nil => exact Memory.wfFrom_consCell hlo ha rfl
  | cons p m ih =>
    obtain ⟨b, u⟩ := p
    have hc := Memory.wfFrom_cons.mp h
    unfold Memory.write
    split
    · next hlt => exact Memory.wfFrom_consCell hlo ha (Memory.wfFrom_cons.mpr ⟨by omega, hc.2⟩)
    · split
      · next heq => subst heq; exact Memory.wfFrom_consCell hlo ha hc.2.2.2
      · exact Memory.wfFrom_cons.mpr ⟨hc.1, hc.2.1, hc.2.2.1, ih (by omega) hc.2.2.2⟩

/-- A write inside memory keeps the canonical form. -/
theorem Memory.wf_write {a : Nat} {v : Word} {m : Memory} (ha : a < 256) (h : Memory.wf m = true) :
    Memory.wf (Memory.write m a v) = true := Memory.wfFrom_write (Nat.zero_le a) ha h

/-- Loading an image keeps the canonical form. -/
theorem Memory.wf_loadFrom {ws : List Word} {a : Nat} {m : Memory} (h : Memory.wf m = true) :
    Memory.wf (Memory.loadFrom a ws m) = true := by
  induction ws generalizing a m with
  | nil => exact h
  | cons w ws ih =>
    unfold Memory.loadFrom
    split
    · next ha => exact ih (Memory.wf_write ha h)
    · exact h

/-- The reset memory is canonical. -/
theorem State.reset_mem_wf : State.reset.mem.wf = true := rfl

/-- Canonical memories that read alike are equal: equal memories are equal data. -/
theorem Memory.ext_read_from {lo : Nat} {m n : Memory} (hm : Memory.wfFrom lo m = true) (hn : Memory.wfFrom lo n = true)
    (h : ∀ a, Memory.read m a = Memory.read n a) : m = n := by
  induction m generalizing lo n with
  | nil =>
    cases n with
    | nil => rfl
    | cons q n =>
      obtain ⟨b, u⟩ := q
      have := h b
      simp [Memory.read, unlistedCell] at this
      exact absurd this.symm (Memory.wfFrom_cons.mp hn).2.2.1
  | cons p m ih =>
    obtain ⟨a, v⟩ := p
    have hp := Memory.wfFrom_cons.mp hm
    cases n with
    | nil =>
      have := h a
      simp [Memory.read, unlistedCell] at this
      exact absurd this hp.2.2.1
    | cons q n =>
      obtain ⟨b, u⟩ := q
      have hq := Memory.wfFrom_cons.mp hn
      have hab : a = b := by
        rcases Nat.lt_trichotomy a b with hlt | heq | hgt
        · have := h a
          rw [Memory.read_below (lo := b) (Memory.wfFrom_cons.mpr ⟨le_refl b, hq.2⟩) hlt] at this
          exact absurd (by simpa [Memory.read] using this) hp.2.2.1
        · exact heq
        · have := h b
          rw [Memory.read_below (lo := a) (Memory.wfFrom_cons.mpr ⟨le_refl a, hp.2⟩) hgt] at this
          exact absurd (by simpa [Memory.read] using this.symm) hq.2.2.1
      subst hab
      have hv : v = u := by simpa [Memory.read] using h a
      subst hv
      congr 1
      refine ih hp.2.2.2 hq.2.2.2 fun c => ?_
      by_cases hc : c = a
      · subst hc
        rw [Memory.read_below hp.2.2.2 (Nat.lt_succ_self c), Memory.read_below hq.2.2.2 (Nat.lt_succ_self c)]
      · simpa [Memory.read, hc] using h c

theorem Memory.ext_read {m n : Memory} (hm : Memory.wf m = true) (hn : Memory.wf n = true)
    (h : ∀ a, Memory.read m a = Memory.read n a) : m = n := Memory.ext_read_from hm hn h

/-! ### The same over states -/

theorem State.memRead_memWrite_self {s : State} {a : Nat} {v : Word} (h : s.mem.wf = true) :
    (s.memWrite a v).memRead a = v := Memory.read_write_self h

theorem State.memRead_memWrite_other (s : State) {a b : Nat} {v : Word} (h : b ≠ a) :
    (s.memWrite a v).memRead b = s.memRead b := Memory.read_write_other s.mem h

end Sys2Proof.Machine
end

