-- ==== Sys2Proof/Laws/Registers.lean ====
section
/-! SUPPORT. The register file and the register index (10_state.md R10, 60_exceptions.md R133). -/

namespace Sys2Proof.Machine

@[simp] theorem Regs.get_set_self (x : Regs) (i : RegName) (v : Word) : (x.set i v).get i = v := by
  cases i <;> rfl

theorem Regs.get_set_other (x : Regs) {i j : RegName} (v : Word) (h : j ≠ i) : (x.set i v).get j = x.get j := by
  cases i <;> cases j <;> first | rfl | exact absurd rfl h

@[simp] theorem State.readReg_writeReg_self (s : State) (i : RegName) (v : Word) :
    (s.writeReg i v).readReg i = v := Regs.get_set_self s.x i v

theorem State.readReg_writeReg_other (s : State) {i j : RegName} (v : Word) (h : j ≠ i) :
    (s.writeReg i v).readReg j = s.readReg j := Regs.get_set_other s.x v h

/-- Two register files that read alike are equal. -/
theorem Regs.ext_get {x y : Regs} (h : ∀ i, x.get i = y.get i) : x = y := by
  have h0 := h .r0; have h1 := h .r1; have h2 := h .r2; have h3 := h .r3
  cases x; cases y; simp_all [Regs.get]

@[simp] theorem regIndex_index (q : RegName) : regIndex q.index = some q := by cases q <;> rfl

/-- The index of a register is 0 to 3. -/
theorem RegName.index_le (q : RegName) : q.index ≤ 3 := by cases q <;> decide

/-- An index that names a register is that register's. -/
theorem regIndex_eq_some {n : Nat} {q : RegName} (h : regIndex n = some q) : n = q.index := by
  unfold regIndex at h
  split at h <;> cases h <;> rfl

/-- An index above 3 names none. -/
theorem regIndex_of_gt {n : Nat} (h : 3 < n) : regIndex n = none := by
  match n, h with
  | n + 4, _ => rfl

/-- An index names a register, or it is above 3. -/
theorem regIndex_cases (n : Nat) : (∃ q : RegName, n = q.index ∧ regIndex n = some q) ∨ (3 < n ∧ regIndex n = none) := by
  match n with
  | 0 => exact .inl ⟨.r0, rfl, rfl⟩
  | 1 => exact .inl ⟨.r1, rfl, rfl⟩
  | 2 => exact .inl ⟨.r2, rfl, rfl⟩
  | 3 => exact .inl ⟨.r3, rfl, rfl⟩
  | n + 4 => exact .inr ⟨by omega, rfl⟩

/-- A decoded address is inside memory (20_memory.md R30). -/
theorem dataAddr_of_lt {a : Nat} (h : a < 256) : dataAddr a = some a := by simp [dataAddr, Config.memSize, h]

theorem dataAddr_of_ge {a : Nat} (h : 256 ≤ a) : dataAddr a = none := by
  have : ¬ a < 256 := by omega
  simp [dataAddr, Config.memSize, this]

theorem dataAddr_eq_some {a b : Nat} (h : dataAddr a = some b) : b = a ∧ a < 256 := by
  unfold dataAddr at h
  split at h
  · next hlt => cases h; exact ⟨rfl, hlt⟩
  · cases h

end Sys2Proof.Machine
end

