-- ==== Sys2Proof/Laws/Exec.lean ====
section
/-! SUPPORT. What each shared operation, the dispatch and the step can do, said once. -/

namespace Sys2Proof.Machine

/-! ### The shared operations of the instructions -/

/-- LOAD either writes the register it names with the cell it names, or faults on an index out of range. -/
theorem loadCell_cases (o1 o2 : Nat) (s : State) :
    (∃ q : RegName, o1 = q.index ∧ o2 < 256 ∧ loadCell o1 o2 s = s.writeReg q (s.memRead o2)) ∨
    ((3 < o1 ∨ 256 ≤ o2) ∧ loadCell o1 o2 s = s.raiseAtInstr .operandIndexOutOfRange) := by
  rcases regIndex_cases o1 with ⟨q, rfl, hq⟩ | ⟨h3, hq⟩
  · by_cases ha : o2 < 256
    · exact .inl ⟨q, rfl, ha, by simp [loadCell, dataAddr_of_lt ha]⟩
    · exact .inr ⟨.inr (by omega), by simp [loadCell, dataAddr_of_ge (Nat.le_of_not_lt ha)]⟩
  · exact .inr ⟨.inl h3, by simp [loadCell, hq]⟩

theorem loadCell_of_index (q : RegName) {a : Nat} (s : State) (ha : a < 256) :
    loadCell q.index a s = s.writeReg q (s.memRead a) := by simp [loadCell, dataAddr_of_lt ha]

theorem loadCell_of_gt {r : Nat} (a : Nat) (s : State) (h : 3 < r) :
    loadCell r a s = s.raiseAtInstr .operandIndexOutOfRange := by simp [loadCell, regIndex_of_gt h]

/-- STORE either writes the cell it names with the register it names, or faults on an index out of range. -/
theorem storeCell_cases (o1 o2 : Nat) (s : State) :
    (∃ q : RegName, o1 = q.index ∧ o2 < 256 ∧ storeCell o1 o2 s = s.memWrite o2 (s.readReg q)) ∨
    ((3 < o1 ∨ 256 ≤ o2) ∧ storeCell o1 o2 s = s.raiseAtInstr .operandIndexOutOfRange) := by
  rcases regIndex_cases o1 with ⟨q, rfl, hq⟩ | ⟨h3, hq⟩
  · by_cases ha : o2 < 256
    · exact .inl ⟨q, rfl, ha, by simp [storeCell, dataAddr_of_lt ha]⟩
    · exact .inr ⟨.inr (by omega), by simp [storeCell, dataAddr_of_ge (Nat.le_of_not_lt ha)]⟩
  · exact .inr ⟨.inl h3, by simp [storeCell, hq]⟩

theorem storeCell_of_index (q : RegName) {a : Nat} (s : State) (ha : a < 256) :
    storeCell q.index a s = s.memWrite a (s.readReg q) := by simp [storeCell, dataAddr_of_lt ha]

theorem storeCell_of_gt {r : Nat} (a : Nat) (s : State) (h : 3 < r) :
    storeCell r a s = s.raiseAtInstr .operandIndexOutOfRange := by simp [storeCell, regIndex_of_gt h]

/-- ADD either writes the destination with the sum, or faults on an index out of range. -/
theorem addRegs_cases (o1 o2 : Nat) (s : State) :
    (∃ d r : RegName, o1 = d.index ∧ o2 = r.index ∧
      addRegs o1 o2 s = s.writeReg d (aluAdd (s.readReg d) (s.readReg r))) ∨
    ((3 < o1 ∨ 3 < o2) ∧ addRegs o1 o2 s = s.raiseAtInstr .operandIndexOutOfRange) := by
  rcases regIndex_cases o1 with ⟨d, rfl, hd⟩ | ⟨h3, hd⟩
  · rcases regIndex_cases o2 with ⟨r, rfl, hr⟩ | ⟨h3, hr⟩
    · exact .inl ⟨d, r, rfl, rfl, by simp [addRegs]⟩
    · exact .inr ⟨.inr h3, by simp [addRegs, hr]⟩
  · exact .inr ⟨.inl h3, by simp [addRegs, hd]⟩

theorem addRegs_of_index (d r : RegName) (s : State) :
    addRegs d.index r.index s = s.writeReg d (aluAdd (s.readReg d) (s.readReg r)) := by simp [addRegs]

theorem addRegs_of_gt {o1 o2 : Nat} (s : State) (h : 3 < o1 ∨ 3 < o2) :
    addRegs o1 o2 s = s.raiseAtInstr .operandIndexOutOfRange := by
  rcases addRegs_cases o1 o2 s with ⟨d, r, rfl, rfl, _⟩ | ⟨_, he⟩
  · have := d.index_le; have := r.index_le; omega
  · exact he

/-! ### The dispatch by instruction and operands -/

theorem exec_isLoad {i : Instr} {r a : Nat} (h : isLoad i r a) (s : State) : exec i s = .next (loadCell r a s) := by
  rcases h with rfl | rfl | ⟨rfl, rfl, rfl⟩ <;> rfl

theorem exec_isStore {i : Instr} {r a : Nat} (h : isStore i r a) (s : State) :
    exec i s = .next (storeCell r a s) := by
  rcases h with rfl | rfl | ⟨rfl, rfl, rfl⟩ <;> rfl

theorem exec_isAdd {i : Instr} {d r : Nat} (h : isAdd i d r) (s : State) : exec i s = .next (addRegs d r s) := by
  rcases h with rfl | rfl | ⟨rfl, rfl, rfl⟩ <;> rfl

theorem exec_isJump {i : Instr} {u a : Nat} (h : isJump i u a) (s : State) : exec i s = .next (s.jumpTo a) := by
  rcases h with rfl | rfl | ⟨rfl, rfl, rfl⟩ <;> rfl

/-- Every instruction is one of the five, in one of its encodings. -/
theorem instr_cases (i : Instr) :
    i = .halt ∨ (∃ r a, isLoad i r a) ∨ (∃ r a, isStore i r a) ∨ (∃ d r, isAdd i d r) ∨ (∃ u a, isJump i u a) := by
  cases i <;> simp [isLoad, isStore, isAdd, isJump]

/-! ### The step -/

theorem State.pcInBounds_iff {s : State} : s.pcInBounds = true ↔ s.pc.toNat ≤ 255 := by
  unfold State.pcInBounds
  rw [decide_eq_true_iff]
  change s.pc.toNat < 256 ↔ _
  omega

/-- A step of a core that fetches executes the decoded word on the state after the fetch. -/
theorem step_of_fetches {s : State} (h : s.fetches) : step s = execDecoded (decode s.nextWord) s.fetch := by
  simp [step, cycle, h.1, runningCycle, State.pcInBounds_iff.mpr h.2, State.nextWord]

/-- A step out of bounds faults before it fetches. -/
theorem step_outOfBounds {s : State} (hr : s.st = .running) (h : 255 < s.pc.toNat) :
    step s = .next (s.raise .pcOutOfBounds s.pc) := by
  have hb : ¬ s.pcInBounds = true := fun hb => by have := State.pcInBounds_iff.mp hb; omega
  simp [step, cycle, hr, runningCycle, hb]

/-- A stopped core takes no step. -/
theorem step_stopped {s : State} (h : s.st ≠ .running) : step s = .next s := by
  cases hs : s.st with
  | running => exact absurd hs h
  | halted => simp [step, cycle, hs]
  | faulted c => simp [step, cycle, hs]

/-- After the fetch the instruction's address is the pc before it. -/
@[simp] theorem State.instrAddr_fetch (s : State) : s.fetch.instrAddr = s.pc := by simp [State.instrAddr]

/-- All a step can do. -/
theorem step_cases (s : State) :
    (s.st ≠ .running ∧ step s = .next s) ∨
    (s.st = .running ∧ 255 < s.pc.toNat ∧ step s = .next (s.raise .pcOutOfBounds s.pc)) ∨
    (s.fetches ∧ (decode s.nextWord).isUnknown = true ∧ step s = .next (s.fetch.raise .unknownOpcode s.pc)) ∨
    (∃ i, s.runs i ∧ step s = exec i s.fetch) := by
  by_cases hr : s.st = .running
  · by_cases hb : s.pc.toNat ≤ 255
    · have hf : s.fetches := ⟨hr, hb⟩
      have hs := step_of_fetches hf
      cases hd : decode s.nextWord with
      | instr i => exact .inr (.inr (.inr ⟨i, ⟨hf, hd⟩, by rw [hs, hd]; rfl⟩))
      | unknown w =>
        refine .inr (.inr (.inl ⟨hf, rfl, ?_⟩))
        rw [hs, hd]; simp [execDecoded, State.raiseAtInstr]
    · exact .inr (.inl ⟨hr, by omega, step_outOfBounds hr (by omega)⟩)
  · exact .inl ⟨hr, step_stopped hr⟩

end Sys2Proof.Machine
end

