-- ==== Sys2Proof/Tests/Slice0.lean ====
section
/-! SUPPORT. Tests: expected values are those of 95_test_vectors.md (the vector's id stands in the comment) or
written out by hand from the rule named. Then a witness for the hypotheses of each statement. -/

namespace Sys2Proof.Tests

open Sys2Proof.Machine

/-- A running state. -/
def at_ (pc : PcWord) (mem : Memory) (x : Regs := ⟨0, 0, 0, 0⟩) : State :=
  { State.reset with pc := pc, mem := mem, x := x }

/-- The state after one step. -/
def after (s : State) : State :=
  match step s with
  | .next t => t
  | .fault _ => s
  | .refused _ => s

/-! ### WellFormed: one ill-formed term for each check, refused -/

theorem test_wf_load_register : (Instr.load 10 0).wf = false := by decide
theorem test_wf_load_address : (Instr.load 0 100).wf = false := by decide
theorem test_wf_loadAlias3_register : (Instr.loadAlias3 10 0).wf = false := by decide
theorem test_wf_loadAlias3_address : (Instr.loadAlias3 0 10).wf = false := by decide
theorem test_wf_store_register : (Instr.store 10 0).wf = false := by decide
theorem test_wf_store_address : (Instr.store 0 100).wf = false := by decide
theorem test_wf_storeAlias3_register : (Instr.storeAlias3 10 0).wf = false := by decide
theorem test_wf_storeAlias3_address : (Instr.storeAlias3 0 10).wf = false := by decide
theorem test_wf_add_destination : (Instr.add 10 0).wf = false := by decide
theorem test_wf_add_source : (Instr.add 0 10).wf = false := by decide
theorem test_wf_addAlias4_destination : (Instr.addAlias4 10 0).wf = false := by decide
theorem test_wf_addAlias4_source : (Instr.addAlias4 0 100).wf = false := by decide
theorem test_wf_jump_unused : (Instr.jump 10 0).wf = false := by decide
theorem test_wf_jump_target : (Instr.jump 0 100).wf = false := by decide
theorem test_wf_jumpAlias3_unused : (Instr.jumpAlias3 10 0).wf = false := by decide
theorem test_wf_jumpAlias3_target : (Instr.jumpAlias3 0 10).wf = false := by decide

/-! ### Decoding: every constructor by a word in digits (95_test_vectors.md section 2) -/

theorem test_decode_halt : decode 0 = .instr .halt := by decide
theorem test_decode_load : decode 1120 = .instr (.load 1 20) := by decide
theorem test_decode_loadAlias3 : decode 137 = .instr (.loadAlias3 3 7) := by decide
theorem test_decode_loadAlias1 : decode 1 = .instr .loadAlias1 := by decide
theorem test_decode_store : decode 2322 = .instr (.store 3 22) := by decide
theorem test_decode_storeAlias3 : decode 215 = .instr (.storeAlias3 1 5) := by decide
theorem test_decode_storeAlias1 : decode 2 = .instr .storeAlias1 := by decide
theorem test_decode_add : decode 312 = .instr (.add 1 2) := by decide
theorem test_decode_addAlias4 : decode 3399 = .instr (.addAlias4 3 99) := by decide
theorem test_decode_addAlias1 : decode 3 = .instr .addAlias1 := by decide
theorem test_decode_jump : decode 4520 = .instr (.jump 5 20) := by decide
theorem test_decode_jumpAlias3 : decode 407 = .instr (.jumpAlias3 0 7) := by decide
theorem test_decode_jumpAlias1 : decode 4 = .instr .jumpAlias1 := by decide

/-- Rejected by name: the boundaries of the illegal ranges. -/
theorem test_decode_illegal :
    decode (BitVec.ofInt 32 (-2147483648)) = .unknown (BitVec.ofInt 32 (-2147483648)) ∧ decode (-1) = .unknown (-1) ∧
    decode 5 = .unknown 5 ∧ decode 99 = .unknown 99 ∧ decode 500 = .unknown 500 ∧ decode 999 = .unknown 999 ∧
    decode 5000 = .unknown 5000 ∧ decode 2147483647 = .unknown 2147483647 := by decide

/-- The host's table words: a word of one cell decodes, an illegal one and one of two cells do not. -/
theorem test_decodeTableWord :
    decodeTableWord 32 1120 = some (.load 1 20) ∧ decodeTableWord 8 4 = some .jumpAlias1 ∧
    decodeTableWord 16 999 = none ∧ decodeTableWord 64 4294967297 = none := by decide

/-! ### One step of each instruction -/

/-- H2. -/
theorem test_halt : after (at_ 7 [(6, 1)] ⟨1, 2, 3, 4⟩) =
    { at_ 8 [(6, 1)] ⟨1, 2, 3, 4⟩ with st := .halted } := by decide
/-- H3. -/
theorem test_halt_at_255 : (after (at_ 255 [])).pc = 256 ∧ (after (at_ 255 [])).st = .halted := by decide
/-- L3. -/
theorem test_load : after (at_ 5 [(5, 1399), (99, -4)] ⟨0, 0, 0, 77⟩) =
    { at_ 6 [(5, 1399), (99, -4)] ⟨0, 0, 0, -4⟩ with ir := 1399 } := by decide
/-- L7. -/
theorem test_load_bad_index : after (at_ 0 [(0, 1520), (20, 10)] ⟨1, 2, 3, 4⟩) =
    { at_ 1 [(0, 1520), (20, 10)] ⟨1, 2, 3, 4⟩ with ir := 1520, st := .faulted .operandIndexOutOfRange } := by decide
/-- L5. -/
theorem test_loadAlias3 : (after (at_ 0 [(0, 123), (3, 8)])).x = ⟨0, 0, 8, 0⟩ := by decide
/-- L6. -/
theorem test_loadAlias1 : (after (at_ 4 [(0, 55), (4, 1)])).x = ⟨55, 0, 0, 0⟩ := by decide
/-- ST1. -/
theorem test_store : after (at_ 4 [(4, 2011)] ⟨42, 0, 0, 0⟩) =
    { at_ 5 [(4, 2011), (11, 42)] ⟨42, 0, 0, 0⟩ with ir := 2011 } := by decide
/-- ST3: the STORE overwrites its own word with 0, and the canonical memory drops the cell. -/
theorem test_store_own_word : after (at_ 1 [(1, 2001)]) = { at_ 2 [] with ir := 2001 } := by decide
/-- ST5. -/
theorem test_storeAlias3 : (after (at_ 0 [(0, 215)] ⟨0, 6, 0, 0⟩)).mem = [(0, 215), (5, 6)] := by decide
/-- ST6. -/
theorem test_storeAlias1 : (after (at_ 3 [(3, 2)] ⟨9, 0, 0, 0⟩)).mem = [(0, 9), (3, 2)] := by decide
/-- ST7. -/
theorem test_store_bad_index : (after (at_ 0 [(0, 2400)] ⟨1, 2, 3, 4⟩)).st = .faulted .operandIndexOutOfRange ∧
    (after (at_ 0 [(0, 2400)] ⟨1, 2, 3, 4⟩)).mem = [(0, 2400)] := by decide
/-- A1. -/
theorem test_add : (after (at_ 2 [(2, 312)] ⟨0, 10, 5, 0⟩)).x = ⟨0, 15, 5, 0⟩ := by decide
/-- A6. -/
theorem test_add_wraps : (after (at_ 0 [(0, 301)] ⟨BitVec.ofInt 32 (-2147483648), -1, 0, 0⟩)).x.x0 = 2147483647 := by decide
/-- A8. -/
theorem test_addAlias4 : (after (at_ 0 [(0, 3101)] ⟨0, 21, 0, 0⟩)).x = ⟨0, 42, 0, 0⟩ := by decide
/-- A11 and A12. -/
theorem test_add_bad_index :
    (after (at_ 0 [(0, 334)] ⟨1, 2, 3, 4⟩)).st = .faulted .operandIndexOutOfRange ∧
    (after (at_ 0 [(0, 343)] ⟨1, 2, 3, 4⟩)).st = .faulted .operandIndexOutOfRange ∧
    (after (at_ 0 [(0, 343)] ⟨1, 2, 3, 4⟩)).x = ⟨1, 2, 3, 4⟩ := by decide
/-- A9. -/
theorem test_addAlias1 : (after (at_ 0 [(0, 3)] ⟨4010, 0, 0, 0⟩)).x.x0 = 8020 := by decide
/-- J4. -/
theorem test_jump : after (at_ 0 [(0, 4520)] ⟨1, 2, 3, 4⟩) =
    { at_ 20 [(0, 4520)] ⟨1, 2, 3, 4⟩ with ir := 4520 } := by decide
/-- J7. -/
theorem test_jump_largest_target : (after (at_ 0 [(0, 4099)])).pc = 99 := by decide
/-- J5. -/
theorem test_jumpAlias3 : (after (at_ 3 [(3, 407)])).pc = 7 := by decide
/-- J6. -/
theorem test_jumpAlias1 : (after (at_ 9 [(9, 4)])).pc = 0 := by decide

/-! ### Faults, the status register, the host's actions, the assembler -/

/-- F1. -/
theorem test_unknown_opcode : after (at_ 20 [(20, 10)]) =
    { at_ 21 [(20, 10)] with ir := 10, st := .faulted .unknownOpcode, faultAddr := 20 } := by decide
/-- F4: the operand digits of an illegal word are not examined. -/
theorem test_unknown_opcode_first : (after (at_ 0 [(0, 999)])).st = .faulted .unknownOpcode := by decide
/-- J9 and J10. -/
theorem test_pc_out_of_bounds : (after (at_ 255 [(255, 300)])).pc = 256 ∧ (after (at_ 255 [(255, 300)])).st = .running ∧
    after { at_ 256 [] with ir := 300 } =
      { at_ 256 [] with ir := 300, st := .faulted .pcOutOfBounds, faultAddr := 256 } := by decide
/-- H4. -/
theorem test_halted_stays : after { at_ 3 [(3, 300)] with st := .halted } = { at_ 3 [(3, 300)] with st := .halted } := by decide
/-- RS2. -/
theorem test_launch : State.launch [1120] = { State.reset with mem := [(0, 1120)] } := by decide
/-- U3 of 93_implementation_defined.md. -/
theorem test_image_refused : imageOfInts [1120, 2147483648] = none ∧ imageOfInts [-1] = some [-1] := by decide

/-- E4: `load 1, 20 ; first` with the comment character `;`. -/
theorem test_assemble_line : Asm.assembleLine ⟨';', 0, 20, []⟩
    ['l', 'o', 'a', 'd', ' ', '1', ',', ' ', '2', '0', ' ', ';', ' ', 'f', 'i', 'r', 's', 't'] = .word 1120 := by decide
/-- E6 with a HALT line before it: the HALT is dropped, zeros to 19, the fixture after. -/
theorem test_assemble : Asm.assemble ⟨';', 0, 20, [10, 5, 0]⟩
    [['H', 'A', 'L', 'T'], ['S', 'T', 'O', 'R', 'E', ' ', '3', ',', '2', '2']] =
    2322 :: List.replicate 19 0 ++ [10, 5, 0] := by decide
/-- E3 (`SUB 1,2`), D16 (`LOAD 1,120`), and the blank line of R74. -/
theorem test_assemble_reports :
    Asm.assembleLine ⟨';', 0, 20, []⟩ ['S', 'U', 'B', ' ', '1', ',', '2'] = .unrecognizedMnemonic ∧
    Asm.assembleLine ⟨';', 0, 20, []⟩ ['L', 'O', 'A', 'D', ' ', '1', ',', '1', '2', '0'] = .refused ∧
    Asm.assembleLine ⟨';', 0, 20, []⟩ [' ', ' '] = .skipped := by decide

/-- The host's placed word runs at the very next step, from reset and from a stopped state out of bounds. -/
theorem test_withFetchWord : (after (State.reset.withFetchWord 32 4003)).pc = 3 ∧
    (after ({ at_ 256 [] with st := .halted }.withFetchWord 16 1000)).x.x0 = 1000 := by decide

/-! ### Witnesses: a concrete state for the hypotheses of each statement, clause by clause -/

theorem witness_StepRunsTheDecodedInstruction : (at_ 255 [(255, 300)]).runs (.add 0 0) := ⟨⟨rfl, by decide⟩, by decide⟩

theorem witness_FetchChecksTheBoundThenReads :
    ((at_ 256 []).st = .running ∧ 255 < (at_ 256 []).pc.toNat) ∧
    ((at_ 256 []).Inv ∧ 255 < (at_ 256 []).pc.toNat) ∧
    ((at_ 255 []).st = .running ∧ (at_ 255 []).pc.toNat ≤ 255) :=
  ⟨⟨rfl, by decide⟩, ⟨⟨by decide, by decide, rfl⟩, by decide⟩, ⟨rfl, by decide⟩⟩

theorem witness_PcAdvancesOrJumps :
    ((at_ 0 [(0, 4999)]).fetches ∧ decode (at_ 0 [(0, 4999)]).nextWord = .instr (.jump 9 99) ∧ isJump (.jump 9 99) 9 99) ∧
    ((at_ 255 [(255, 300)]).fetches ∧
      ∀ i u a, decode (at_ 255 [(255, 300)]).nextWord = .instr i → ¬ isJump i u a) ∧
    ((at_ 256 []).st = .running ∧ (at_ 256 []).pc.toNat = 256) := by
  refine ⟨⟨⟨rfl, by decide⟩, by decide, .inl rfl⟩, ⟨⟨rfl, by decide⟩, ?_⟩, ⟨rfl, by decide⟩⟩
  intro i u a h
  have : decode (at_ 255 [(255, 300)]).nextWord = .instr (.add 0 0) := by decide
  rw [this] at h; cases h; simp [isJump]

theorem witness_StoppedCoreStaysUntilReset :
    { at_ 0 [] with st := .halted }.st ≠ .running ∧
    { at_ 0 [] with st := .faulted .unknownOpcode }.st ≠ .running := by decide

theorem witness_IllegalWordsFaultUnknownOpcode :
    (∀ v ∈ [(-1 : Int), 5, 99, 500, 999, 5000], isIllegal v) ∧
    ((at_ 255 [(255, 5000)]).fetches ∧ isIllegal (at_ 255 [(255, 5000)]).nextWord.toInt) ∧
    ((at_ 255 [(255, 5000)]).st = .running ∧ step (at_ 255 [(255, 5000)]) = .next (after (at_ 255 [(255, 5000)])) ∧
      (after (at_ 255 [(255, 5000)])).st = .faulted .unknownOpcode) := by
  refine ⟨by unfold isIllegal; decide, ⟨⟨rfl, by decide⟩, by unfold isIllegal; decide⟩, rfl, rfl, by decide⟩

theorem witness_BadIndexWordsFault :
    (∀ v ∈ [(1400 : Int), 1999, 140, 199, 2400, 2999, 240, 299, 304, 340, 399, 3004, 3400, 3999], isBadIndexWord v) ∧
    ((at_ 255 [(255, 3399)]).fetches ∧ isBadIndexWord (at_ 255 [(255, 3399)]).nextWord.toInt) ∧
    ((at_ 255 [(255, 3399)]).st = .running ∧ step (at_ 255 [(255, 3399)]) = .next (after (at_ 255 [(255, 3399)])) ∧
      (after (at_ 255 [(255, 3399)])).st = .faulted .operandIndexOutOfRange) := by
  refine ⟨by unfold isBadIndexWord; decide, ⟨⟨rfl, by decide⟩, by unfold isBadIndexWord; decide⟩, rfl, rfl, by decide⟩

theorem witness_FaultsArePrecise :
    (step (at_ 256 []) = .next (after (at_ 256 [])) ∧ (after (at_ 256 [])).st = .faulted .pcOutOfBounds) ∧
    (step (at_ 255 [(255, 5)]) = .next (after (at_ 255 [(255, 5)])) ∧
      (after (at_ 255 [(255, 5)])).st = .faulted .unknownOpcode) ∧
    (step (at_ 0 [(0, 4000)]) = .next (after (at_ 0 [(0, 4000)])) ∧ ¬ (after (at_ 0 [(0, 4000)])).isFaulted) := by
  refine ⟨⟨rfl, by decide⟩, ⟨rfl, by decide⟩, rfl, ?_⟩
  rintro ⟨c, h⟩
  have : (after (at_ 0 [(0, 4000)])).st = .running := by decide
  rw [this] at h; cases h

theorem witness_WordZeroHalts : (at_ 255 []).fetches ∧ (at_ 255 []).nextWord = 0 := ⟨⟨rfl, by decide⟩, by decide⟩

theorem witness_LoadCopiesTheCellToTheRegister :
    isLoad (.load 3 99) RegName.r3.index 99 ∧ isLoad (.loadAlias3 3 9) RegName.r3.index 9 ∧
    isLoad .loadAlias1 RegName.r0.index 0 := ⟨.inl rfl, .inr (.inl rfl), .inr (.inr ⟨rfl, rfl, rfl⟩)⟩

theorem witness_StoreCopiesTheRegisterToTheCell :
    isStore (.store 3 99) RegName.r3.index 99 ∧ isStore (.storeAlias3 3 9) RegName.r3.index 9 ∧
    isStore .storeAlias1 RegName.r0.index 0 ∧ State.reset.mem.wf = true :=
  ⟨.inl rfl, .inr (.inl rfl), .inr (.inr ⟨rfl, rfl, rfl⟩), rfl⟩

theorem witness_AddWritesTheSum :
    isAdd (.add 3 3) RegName.r3.index RegName.r3.index ∧ isAdd (.addAlias4 3 0) RegName.r3.index RegName.r0.index ∧
    isAdd .addAlias1 RegName.r0.index RegName.r0.index ∧ sumFits 2147483646 1 ∧ ¬ sumFits 2147483647 1 := by
  refine ⟨.inl rfl, .inr (.inl rfl), .inr (.inr ⟨rfl, rfl, rfl⟩), ?_, ?_⟩ <;> unfold sumFits cellMin cellMax <;> decide

theorem witness_JumpSetsThePc : isJump (.jump 9 99) 9 99 ∧ isJump (.jumpAlias3 9 9) 9 9 ∧ isJump .jumpAlias1 0 0 :=
  ⟨.inl rfl, .inr (.inl rfl), .inr (.inr ⟨rfl, rfl, rfl⟩)⟩

theorem witness_RegisterIndexAboveThreeFaults :
    (isLoad (.load 4 0) 4 0 ∧ 3 < 4) ∧ (isStore (.storeAlias3 4 0) 4 0 ∧ 3 < 4) ∧
    (isAdd (.add 4 0) 4 0 ∧ 3 < 4) ∧ (isAdd (.addAlias4 3 4) 3 4 ∧ 3 < 4) :=
  ⟨⟨.inl rfl, by decide⟩, ⟨.inr (.inl rfl), by decide⟩, ⟨.inl rfl, by decide⟩, ⟨.inr (.inl rfl), by decide⟩⟩

theorem witness_FrameOfLoadAndAdd :
    (isLoad (.load 3 99) 3 99 ∧ exec (.load 3 99) State.reset = .next (loadCell 3 99 State.reset) ∧
      badIndex (.load 3 99) = false) ∧
    (isAdd (.add 3 4) 3 4 ∧ exec (.add 3 4) State.reset = .next (addRegs 3 4 State.reset) ∧
      badIndex (.add 3 4) = true) :=
  ⟨⟨.inl rfl, rfl, rfl⟩, ⟨.inl rfl, rfl, rfl⟩⟩

theorem witness_FrameOfStore :
    (isStore (.store 3 99) 3 99 ∧ exec (.store 3 99) State.reset = .next (storeCell 3 99 State.reset) ∧
      dataAddr 99 = some 99 ∧ badIndex (.store 3 99) = false) ∧
    (isStore (.store 4 0) 4 0 ∧ exec (.store 4 0) State.reset = .next (storeCell 4 0 State.reset) ∧
      badIndex (.store 4 0) = true) ∧ dataAddr 256 = none :=
  ⟨⟨.inl rfl, rfl, rfl, rfl⟩, ⟨.inl rfl, rfl, rfl⟩, rfl⟩

theorem witness_FrameOfHaltAndJump :
    exec .halt State.reset = .next State.reset.halt ∧
    (∃ u a, isJump (.jump 9 99) u a) ∧ exec (.jump 9 99) State.reset = .next (State.reset.jumpTo 99) :=
  ⟨rfl, ⟨9, 99, .inl rfl⟩, rfl⟩

theorem witness_AddressingIsAbsoluteDirect :
    ((at_ 0 [(0, 1399)]).runs (.load 3 99) ∧ isLoad (.load 3 99) RegName.r3.index 99) ∧
    ((at_ 0 [(0, 2399)]).runs (.store 3 99) ∧ (at_ 0 [(0, 2399)]).mem.wf = true ∧
      isStore (.store 3 99) RegName.r3.index 99) :=
  ⟨⟨⟨⟨rfl, by decide⟩, by decide⟩, .inl rfl⟩, ⟨⟨rfl, by decide⟩, by decide⟩, by decide, .inl rfl⟩

theorem witness_AdderLaws : sumFits (BitVec.ofInt 32 (-2147483648)) 0 := by unfold sumFits cellMin cellMax; decide

/-- Each range of the opcode map at a boundary word. -/
theorem witness_OpcodeMap :
    (199 : Word).toInt = 100 + 10 * 9 + 9 ∧ (200 : Word).toInt = 200 + 10 * 0 + 0 ∧
    (399 : Word).toInt = 300 + 10 * 9 + 9 ∧ (400 : Word).toInt = 400 + 10 * 0 + 0 ∧
    (1999 : Word).toInt = 1000 + 100 * 9 + 99 ∧ (2000 : Word).toInt = 2000 + 100 * 0 + 0 ∧
    (3999 : Word).toInt = 3000 + 100 * 9 + 99 ∧ (4999 : Word).toInt = 4000 + 100 * 9 + 99 ∧
    (4 : Word).toInt = 4 ∧ isIllegal (5 : Word).toInt := by unfold isIllegal; decide

theorem witness_DecoderOutputRanges :
    (99 : Word).toInt < 100 ∧ (100 ≤ (100 : Word).toInt ∧ (100 : Word).toInt < 1000) ∧
    (100 ≤ (999 : Word).toInt ∧ (999 : Word).toInt < 1000) ∧ 1000 ≤ (1000 : Word).toInt := by decide

theorem witness_DispatchOnTheOpcodeAlone :
    ((at_ 0 [(0, 5)]).fetches ∧ decode (at_ 0 [(0, 5)]).nextWord = .unknown (at_ 0 [(0, 5)]).nextWord ∧
      step (at_ 0 [(0, 5)]) = .next (after (at_ 0 [(0, 5)]))) ∧
    ((at_ 0 [(0, 312)]).fetches ∧ (at_ 0 [(0, 312), (9, 9)] ⟨1, 2, 3, 4⟩).fetches ∧
      (at_ 0 [(0, 312), (9, 9)] ⟨1, 2, 3, 4⟩).nextWord = (at_ 0 [(0, 312)]).nextWord) :=
  ⟨⟨⟨rfl, by decide⟩, by decide, rfl⟩, ⟨rfl, by decide⟩, ⟨rfl, by decide⟩, by decide⟩

theorem witness_DecodeOfEncode : (Instr.load 9 99).wf = true ∧ (Instr.jumpAlias3 9 9).wf = true := by decide

theorem witness_EncodeOfDecode : decode 3999 = .instr (.addAlias4 9 99) := by decide

theorem witness_EncodedWordsLieInTheirRow : (Instr.addAlias4 9 99).wf = true := by decide

theorem witness_StepKeepsTheInvariant :
    (at_ 256 []).Inv ∧ step (at_ 256 []) = .next (after (at_ 256 [])) := ⟨⟨by decide, by decide, rfl⟩, rfl⟩

theorem witness_RunsFromLaunchKeepTheInvariant : stepMany 0 (State.launch [1120]) = .next (State.launch [1120]) := rfl

theorem witness_RegistersReadAndWritten :
    (step (at_ 0 [(0, 1000)]) = .next (after (at_ 0 [(0, 1000)])) ∧
      (after (at_ 0 [(0, 1000)])).readReg .r0 ≠ (at_ 0 [(0, 1000)]).readReg .r0) ∧
    ((at_ 0 [(0, 2399)] ⟨0, 0, 0, 7⟩).runs (.store 3 99) ∧
      sameButRegisters (at_ 0 [(0, 2399)] ⟨0, 0, 0, 7⟩) (at_ 0 [(0, 2399)] ⟨1, 2, 3, 7⟩) ∧
      ∀ q : RegName, readsReg (.store 3 99) q →
        (at_ 0 [(0, 2399)] ⟨1, 2, 3, 7⟩).readReg q = (at_ 0 [(0, 2399)] ⟨0, 0, 0, 7⟩).readReg q) ∧
    ((at_ 0 [(0, 1400)]).runs (.load 4 0) ∧ badIndex (.load 4 0) = true) := by
  refine ⟨⟨rfl, by decide⟩, ⟨⟨⟨rfl, by decide⟩, by decide⟩, ⟨rfl, rfl, rfl, rfl, rfl⟩, ?_⟩,
    ⟨⟨rfl, by decide⟩, by decide⟩, by decide⟩
  intro q h
  cases q <;> simp [readsReg, isStore, isAdd, RegName.index] at h
  rfl

theorem witness_OnlyStoreWritesMemory :
    (State.reset.mem.wf = true ∧ 255 ≤ 255) ∧
    (step (at_ 0 [(0, 2099)] ⟨7, 0, 0, 0⟩) = .next (after (at_ 0 [(0, 2099)] ⟨7, 0, 0, 0⟩)) ∧
      (after (at_ 0 [(0, 2099)] ⟨7, 0, 0, 0⟩)).memRead 99 ≠ (at_ 0 [(0, 2099)] ⟨7, 0, 0, 0⟩).memRead 99) :=
  ⟨⟨rfl, by decide⟩, rfl, by decide⟩

theorem witness_ReachOfDataAccesses :
    ((at_ 255 [(255, 4999)]).runs (.jump 9 99) ∧ isJump (.jump 9 99) 9 99) ∧
    ((at_ 0 [(0, 1399)]).mem.wf = true ∧ (at_ 0 [(0, 1399), (100, 5)]).mem.wf = true ∧
      sameButMemory (at_ 0 [(0, 1399)]) (at_ 0 [(0, 1399), (100, 5)]) ∧
      (∀ a : Nat, a ≤ 99 → (at_ 0 [(0, 1399), (100, 5)]).memRead a = (at_ 0 [(0, 1399)]).memRead a) ∧
      (at_ 0 [(0, 1399), (100, 5)]).nextWord = (at_ 0 [(0, 1399)]).nextWord) := by
  refine ⟨⟨⟨⟨rfl, by decide⟩, by decide⟩, .inl rfl⟩, by decide, by decide, ⟨rfl, rfl, rfl, rfl, rfl⟩, ?_, by decide⟩
  intro a h
  have hne : a ≠ 100 := by omega
  simp [at_, State.memRead, Memory.read, hne]

theorem witness_OnlyHaltActsOnTheRunState :
    ((Instr.load 4 99).wf = true ∧ exec (.load 4 99) State.reset = .next (loadCell 4 99 State.reset)) ∧
    exec .halt State.reset = .next State.reset.halt := ⟨⟨by decide, rfl⟩, rfl⟩

theorem witness_StoresAreSeenByTheNextFetch :
    ((at_ 98 [(98, 2099)] ⟨5, 0, 0, 0⟩).runs (.store 0 99) ∧ (at_ 98 [(98, 2099)] ⟨5, 0, 0, 0⟩).mem.wf = true ∧
      isStore (.store 0 99) RegName.r0.index 99 ∧ 99 = (at_ 98 [(98, 2099)] ⟨5, 0, 0, 0⟩).pc.toNat + 1) ∧
    ((at_ 99 [(99, 2099)]).runs (.store 0 99) ∧ 99 = (at_ 99 [(99, 2099)]).pc.toNat) :=
  ⟨⟨⟨⟨rfl, by decide⟩, by decide⟩, by decide, .inl rfl, by decide⟩, ⟨⟨rfl, by decide⟩, by decide⟩, by decide⟩

theorem witness_FuelledRunIsTheRun :
    run 1 State.reset = .next (.ended (after State.reset)) ∧ run 0 State.reset = .next (.outOfFuel State.reset) := ⟨rfl, rfl⟩

theorem witness_LoaderSetsTheCells :
    State.reset.mem.wf = true ∧ (List.replicate 256 (7 : Word))[255]? = some 7 ∧ ([] : List Word).length ≤ 0 := by decide

theorem witness_ImagesOfIntegers :
    imageOfInts [2147483648] = none ∧ imageOfInts [2147483647, -2147483648] = some [2147483647, BitVec.ofInt 32 (-2147483648)] := by
  decide

theorem witness_AssemblerEmitsCanonicalWords :
    (300 : Word) ∈ Asm.emittedWords ⟨';', 0, 20, [10, 5, 0]⟩ [['A', 'D', 'D', ' ', '0', ',', '0']] := by decide

theorem witness_AssemblerPadsAndAppendsTheFixture :
    (List.replicate 20 (300 : Word)).length ≤ 20 ∧ 20 < (List.replicate 21 (300 : Word)).length := by decide

end Sys2Proof.Tests
end

section
/-! PROOFS. The statements about the pc and the registers (10_state.md R11, R12, R14), and what they need: the range
of every decoded operand, what each shared operation leaves unchanged, and that every update keeps two states equal
but for their registers. -/

namespace Sys2Proof

/-! ### The range of decoded operands (30_encoding.md R58) -/

theorem decodeFields_operand1_le (w : Word) : (decodeFields w).operand1 ≤ 9 := by
  unfold decodeFields
  split <;> simp only [layout4, layout3, layoutDegenerate] <;> omega

theorem decodeFields_operand2_le (w : Word) : (decodeFields w).operand2 ≤ 99 := by
  unfold decodeFields
  split <;> simp only [layout4, layout3, layoutDegenerate] <;> omega

theorem decodeFields_operand2_le_of_threeDigit {w : Word} (h : layoutOf w = .threeDigit) :
    (decodeFields w).operand2 ≤ 9 := by
  simp only [decodeFields, h, layout3]
  omega

theorem instrOf_wf {w : Word} {l : Layout} {f : Fields} {i : Instr} (h : instrOf w l f = .instr i)
    (h1 : f.operand1 ≤ 9) (h2 : f.operand2 ≤ 99) (h3 : l = .threeDigit → f.operand2 ≤ 9) : i.wf = true := by
  unfold instrOf at h
  split at h <;> cases h <;> simp_all [Instr.wf, isDigit, isTwoDigits]

/-- A decoded instruction is well formed. -/
theorem decode_wf {w : Word} {i : Instr} (h : decode w = .instr i) : i.wf = true :=
  instrOf_wf h (decodeFields_operand1_le w) (decodeFields_operand2_le w) decodeFields_operand2_le_of_threeDigit

namespace Machine

theorem State.runs.wf {s : State} {i : Instr} (h : s.runs i) : i.wf = true := decode_wf h.2

theorem isLoad.operands_le {i : Instr} {r a : Nat} (h : isLoad i r a) (hwf : i.wf = true) : r ≤ 9 ∧ a ≤ 99 := by
  rcases h with rfl | rfl | ⟨rfl, rfl, rfl⟩ <;> simp [Instr.wf, isDigit, isTwoDigits] at hwf <;> omega

theorem isStore.operands_le {i : Instr} {r a : Nat} (h : isStore i r a) (hwf : i.wf = true) : r ≤ 9 ∧ a ≤ 99 := by
  rcases h with rfl | rfl | ⟨rfl, rfl, rfl⟩ <;> simp [Instr.wf, isDigit, isTwoDigits] at hwf <;> omega

theorem isAdd.operands_le {i : Instr} {d r : Nat} (h : isAdd i d r) (hwf : i.wf = true) : d ≤ 9 ∧ r ≤ 99 := by
  rcases h with rfl | rfl | ⟨rfl, rfl, rfl⟩ <;> simp [Instr.wf, isDigit, isTwoDigits] at hwf <;> omega

theorem isJump.target_le {i : Instr} {u a : Nat} (h : isJump i u a) (hwf : i.wf = true) : a ≤ 99 := by
  rcases h with rfl | rfl | ⟨rfl, rfl, rfl⟩ <;> simp [Instr.wf, isDigit, isTwoDigits] at hwf <;> omega

/-! ### Register indices above 3 (60_exceptions.md R133) -/

theorem isLoad.badIndex_iff {i : Instr} {r a : Nat} (h : isLoad i r a) : badIndex i = true ↔ 3 < r := by
  rcases h with rfl | rfl | ⟨rfl, rfl, rfl⟩ <;> simp [badIndex]

theorem isStore.badIndex_iff {i : Instr} {r a : Nat} (h : isStore i r a) : badIndex i = true ↔ 3 < r := by
  rcases h with rfl | rfl | ⟨rfl, rfl, rfl⟩ <;> simp [badIndex]

theorem isAdd.badIndex_iff {i : Instr} {d r : Nat} (h : isAdd i d r) : badIndex i = true ↔ 3 < d ∨ 3 < r := by
  rcases h with rfl | rfl | ⟨rfl, rfl, rfl⟩ <;> simp [badIndex]

theorem isJump.badIndex_eq {i : Instr} {u a : Nat} (h : isJump i u a) : badIndex i = false := by
  rcases h with rfl | rfl | ⟨rfl, rfl, rfl⟩ <;> rfl

theorem loadCell_of_outOfRange {o1 o2 : Nat} (s : State) (h : 3 < o1 ∨ 256 ≤ o2) :
    loadCell o1 o2 s = s.raiseAtInstr .operandIndexOutOfRange := by
  rcases loadCell_cases o1 o2 s with ⟨q, rfl, ha, _⟩ | ⟨_, he⟩
  · have := q.index_le; omega
  · exact he

theorem storeCell_of_outOfRange {o1 o2 : Nat} (s : State) (h : 3 < o1 ∨ 256 ≤ o2) :
    storeCell o1 o2 s = s.raiseAtInstr .operandIndexOutOfRange := by
  rcases storeCell_cases o1 o2 s with ⟨q, rfl, ha, _⟩ | ⟨_, he⟩
  · have := q.index_le; omega
  · exact he

/-- An instruction that uses a register index above 3 faults and does nothing else. -/
theorem exec_of_badIndex {i : Instr} (h : badIndex i = true) (s : State) :
    exec i s = .next (s.raiseAtInstr .operandIndexOutOfRange) := by
  rcases instr_cases i with rfl | ⟨r, a, hi⟩ | ⟨r, a, hi⟩ | ⟨d, r, hi⟩ | ⟨u, a, hi⟩
  · cases h
  · rw [exec_isLoad hi, loadCell_of_gt a s (hi.badIndex_iff.mp h)]
  · rw [exec_isStore hi, storeCell_of_gt a s (hi.badIndex_iff.mp h)]
  · rw [exec_isAdd hi, addRegs_of_gt s (hi.badIndex_iff.mp h)]
  · rw [hi.badIndex_eq] at h; cases h

/-! ### What the shared operations leave unchanged -/

@[simp] theorem loadCell_pc (o1 o2 : Nat) (s : State) : (loadCell o1 o2 s).pc = s.pc := by
  rcases loadCell_cases o1 o2 s with ⟨q, _, _, he⟩ | ⟨_, he⟩ <;> simp [he]

@[simp] theorem storeCell_pc (o1 o2 : Nat) (s : State) : (storeCell o1 o2 s).pc = s.pc := by
  rcases storeCell_cases o1 o2 s with ⟨q, _, _, he⟩ | ⟨_, he⟩ <;> simp [he]

@[simp] theorem addRegs_pc (o1 o2 : Nat) (s : State) : (addRegs o1 o2 s).pc = s.pc := by
  rcases addRegs_cases o1 o2 s with ⟨d, r, _, _, he⟩ | ⟨_, he⟩ <;> simp [he]

theorem loadCell_readReg_of_ne {o1 : Nat} {q : RegName} (h : o1 ≠ q.index) (o2 : Nat) (s : State) :
    (loadCell o1 o2 s).readReg q = s.readReg q := by
  rcases loadCell_cases o1 o2 s with ⟨p, rfl, _, he⟩ | ⟨_, he⟩
  · rw [he, State.readReg_writeReg_other s _ (fun hqp => h (by rw [hqp]))]
  · simp [he]

@[simp] theorem storeCell_readReg (o1 o2 : Nat) (s : State) (q : RegName) :
    (storeCell o1 o2 s).readReg q = s.readReg q := by
  rcases storeCell_cases o1 o2 s with ⟨p, _, _, he⟩ | ⟨_, he⟩ <;> simp [he]

theorem addRegs_readReg_of_ne {o1 : Nat} {q : RegName} (h : o1 ≠ q.index) (o2 : Nat) (s : State) :
    (addRegs o1 o2 s).readReg q = s.readReg q := by
  rcases addRegs_cases o1 o2 s with ⟨d, r, rfl, _, he⟩ | ⟨_, he⟩
  · rw [he, State.readReg_writeReg_other s _ (fun hqd => h (by rw [hqd]))]
  · simp [he]

/-- An instruction changes no register it does not write. -/
theorem exec_readReg_of_not_writesReg {i : Instr} {s t : State} {q : RegName} (he : exec i s = .next t)
    (hw : ¬ writesReg i q) : t.readReg q = s.readReg q := by
  rcases instr_cases i with rfl | ⟨r, a, hi⟩ | ⟨r, a, hi⟩ | ⟨d, r, hi⟩ | ⟨u, a, hi⟩
  · cases he; rfl
  · rw [exec_isLoad hi] at he; cases he
    exact loadCell_readReg_of_ne (by rintro rfl; exact hw (.inl ⟨a, hi⟩)) a s
  · rw [exec_isStore hi] at he; cases he
    exact storeCell_readReg r a s q
  · rw [exec_isAdd hi] at he; cases he
    exact addRegs_readReg_of_ne (by rintro rfl; exact hw (.inr ⟨r, hi⟩)) r s
  · rw [exec_isJump hi] at he; cases he; rfl

/-! ### The pc (10_state.md R14, 40_cycle_and_halt.md R82) -/

theorem State.fetch_pc_toNat {s : State} (h : s.pc.toNat ≤ 255) : s.fetch.pc.toNat = s.pc.toNat + 1 := by
  rw [State.fetch_pc, BitVec.toNat_add]
  exact Nat.mod_eq_of_lt (by change s.pc.toNat + 1 < 512; omega)

theorem exec_pc_of_not_jump {i : Instr} {s t : State} (he : exec i s = .next t) (hj : ∀ u a, ¬ isJump i u a) :
    t.pc = s.pc := by
  rcases instr_cases i with rfl | ⟨r, a, hi⟩ | ⟨r, a, hi⟩ | ⟨d, r, hi⟩ | ⟨u, a, hi⟩
  · cases he; rfl
  · rw [exec_isLoad hi] at he; cases he; exact loadCell_pc r a s
  · rw [exec_isStore hi] at he; cases he; exact storeCell_pc r a s
  · rw [exec_isAdd hi] at he; cases he; exact addRegs_pc d r s
  · exact absurd hi (hj u a)

/-- No target a jump's encoding carries is cut off by the 9 bits of the pc. -/
theorem exec_pc_of_jump {i : Instr} {s t : State} {u a : Nat} (he : exec i s = .next t) (hj : isJump i u a)
    (hwf : i.wf = true) : t.pc.toNat = a := by
  have ha := hj.target_le hwf
  rw [exec_isJump hj] at he
  cases he
  simp only [State.jumpTo_pc, BitVec.toNat_ofNat]
  omega

theorem exec_total (i : Instr) (s : State) : ∃ t, exec i s = .next t := by
  cases i <;> exact ⟨_, rfl⟩

theorem step_of_runs {s : State} {i : Instr} (h : s.runs i) : step s = exec i s.fetch := by
  rw [step_of_fetches h.1, h.2]; rfl

theorem step_of_unknown {s : State} {w : Word} (hf : s.fetches) (hd : decode s.nextWord = .unknown w) :
    step s = .next (s.fetch.raiseAtInstr .unknownOpcode) := by
  rw [step_of_fetches hf, hd]; rfl

/-- The pc after the step that fetches a word: a jump's target, or the advance. -/
theorem step_pc_of_fetches {s : State} (hf : s.fetches) :
    ∃ t, step s = .next t ∧
      (∀ i u a, decode s.nextWord = .instr i → isJump i u a → t.pc.toNat = a) ∧
      ((∀ i u a, decode s.nextWord = .instr i → ¬ isJump i u a) → t.pc.toNat = s.pc.toNat + 1) := by
  cases hd : decode s.nextWord with
  | instr i =>
    have hr : s.runs i := ⟨hf, hd⟩
    obtain ⟨t, he⟩ := exec_total i s.fetch
    refine ⟨t, (step_of_runs hr).trans he, ?_, fun hj => ?_⟩
    · rintro _ u a ⟨⟩ hj
      exact exec_pc_of_jump he hj hr.wf
    · rw [exec_pc_of_not_jump he fun u a => hj i u a rfl, State.fetch_pc_toNat hf.2]
  | unknown w =>
    refine ⟨_, step_of_unknown hf hd, ?_, fun _ => ?_⟩
    · rintro i u a ⟨⟩
    · rw [State.raiseAtInstr_pc, State.fetch_pc_toNat hf.2]

/-- Settles O3: a step that fetches leaves the advance or a jump's target, and one at 256 only faults. -/
theorem pcAdvancesOrJumps : Obligations.PcAdvancesOrJumps := by
  refine ⟨rfl, fun s hf => ?_, fun s hst hpc => ?_⟩
  · have hpc := State.fetch_pc_toNat hf.2
    have hle := hf.2
    exact ⟨step_of_fetches hf, hpc, by omega, by omega, step_pc_of_fetches hf⟩
  · exact ⟨_, step_outOfBounds hst (by omega), rfl, rfl, rfl⟩

/-! ### States that differ in the registers only -/

theorem sameButRegisters_iff {s s' : State} : sameButRegisters s s' ↔ ∃ x, s' = { s with x := x } := by
  constructor
  · rintro ⟨hm, hp, hi, hs, hf⟩
    exact ⟨s'.x, State.ext_fields hm rfl hp hi hs hf⟩
  · rintro ⟨x, rfl⟩
    exact ⟨rfl, rfl, rfl, rfl, rfl⟩

/-- An update that neither reads nor writes a register keeps the two states equal but for their registers. -/
theorem sameButRegisters.map {s s' : State} {f : State → State} (h : sameButRegisters s s')
    (hf : ∀ s x, f { s with x := x } = { f s with x := x }) : sameButRegisters (f s) (f s') := by
  obtain ⟨x, rfl⟩ := sameButRegisters_iff.mp h
  exact sameButRegisters_iff.mpr ⟨x, hf s x⟩

theorem sameButRegisters.fetch {s s' : State} (h : sameButRegisters s s') : sameButRegisters s.fetch s'.fetch :=
  h.map fun _ _ => rfl

theorem sameButRegisters.raiseAtInstr {s s' : State} (h : sameButRegisters s s') (c : FaultCause) :
    sameButRegisters (s.raiseAtInstr c) (s'.raiseAtInstr c) :=
  h.map (f := (·.raiseAtInstr c)) fun _ _ => rfl

theorem sameButRegisters.writeReg {s s' : State} (h : sameButRegisters s s') (q q' : RegName) (v v' : Word) :
    sameButRegisters (s.writeReg q v) (s'.writeReg q' v') := h

theorem sameButRegisters.memWrite {s s' : State} (h : sameButRegisters s s') (a : Nat) (v : Word) :
    sameButRegisters (s.memWrite a v) (s'.memWrite a v) :=
  h.map (f := (·.memWrite a v)) fun _ _ => rfl

theorem sameButRegisters.halt {s s' : State} (h : sameButRegisters s s') : sameButRegisters s.halt s'.halt :=
  h.map fun _ _ => rfl

theorem sameButRegisters.jumpTo {s s' : State} (h : sameButRegisters s s') (a : Nat) :
    sameButRegisters (s.jumpTo a) (s'.jumpTo a) :=
  h.map (f := (·.jumpTo a)) fun _ _ => rfl

theorem sameButRegisters.memRead {s s' : State} (h : sameButRegisters s s') (a : Nat) :
    s'.memRead a = s.memRead a := by
  simp only [State.memRead, h.1]

theorem sameButRegisters.runs {s s' : State} {i : Instr} (h : sameButRegisters s s') (hr : s.runs i) : s'.runs i := by
  obtain ⟨x, rfl⟩ := sameButRegisters_iff.mp h
  exact hr

theorem sameButRegisters.loadCell {s s' : State} (h : sameButRegisters s s') (o1 o2 : Nat) :
    sameButRegisters (loadCell o1 o2 s) (loadCell o1 o2 s') := by
  rcases loadCell_cases o1 o2 s with ⟨q, rfl, ha, he⟩ | ⟨hbad, he⟩
  · rw [he, loadCell_of_index q s' ha]
    exact h.writeReg q q _ _
  · rw [he, loadCell_of_outOfRange s' hbad]
    exact h.raiseAtInstr _

theorem sameButRegisters.storeCell {s s' : State} (h : sameButRegisters s s') {o1 : Nat} (o2 : Nat)
    (hx : ∀ q : RegName, o1 = q.index → s'.readReg q = s.readReg q) :
    sameButRegisters (storeCell o1 o2 s) (storeCell o1 o2 s') := by
  rcases storeCell_cases o1 o2 s with ⟨q, rfl, ha, he⟩ | ⟨hbad, he⟩
  · rw [he, storeCell_of_index q s' ha, hx q rfl]
    exact h.memWrite o2 _
  · rw [he, storeCell_of_outOfRange s' hbad]
    exact h.raiseAtInstr _

theorem sameButRegisters.addRegs {s s' : State} (h : sameButRegisters s s') (o1 o2 : Nat) :
    sameButRegisters (addRegs o1 o2 s) (addRegs o1 o2 s') := by
  rcases addRegs_cases o1 o2 s with ⟨d, r, rfl, rfl, he⟩ | ⟨hbad, he⟩
  · rw [he, addRegs_of_index d r s']
    exact h.writeReg d d _ _
  · rw [he, addRegs_of_gt s' hbad]
    exact h.raiseAtInstr _

section
variable {i : Instr} {s s' t t' : State}

/-- Outside the registers, an instruction depends on no register it does not read. -/
theorem sameButRegisters.exec (h : sameButRegisters s s') (hx : ∀ q, readsReg i q → s'.readReg q = s.readReg q)
    (he : exec i s = .next t) (he' : exec i s' = .next t') : sameButRegisters t t' := by
  rcases instr_cases i with rfl | ⟨r, a, hi⟩ | ⟨r, a, hi⟩ | ⟨d, r, hi⟩ | ⟨u, a, hi⟩
  · cases he; cases he'; exact h.halt
  · rw [exec_isLoad hi] at he he'; cases he; cases he'
    exact h.loadCell r a
  · rw [exec_isStore hi] at he he'; cases he; cases he'
    exact h.storeCell a fun q hq => hx q (.inl ⟨a, hq ▸ hi⟩)
  · rw [exec_isAdd hi] at he he'; cases he; cases he'
    exact h.addRegs d r
  · rw [exec_isJump hi] at he he'; cases he; cases he'
    exact h.jumpTo a

/-- What a LOAD leaves in its destination is the cell, whatever the registers held. -/
theorem exec_isLoad_readReg {q : RegName} {a : Nat} (hi : isLoad i q.index a) (hwf : i.wf = true)
    (he : exec i s = .next t) : t.readReg q = s.memRead a := by
  have ha := (hi.operands_le hwf).2
  rw [exec_isLoad hi, loadCell_of_index q s (by omega)] at he
  cases he
  exact State.readReg_writeReg_self s q _

/-- What an ADD leaves in its destination depends on its two operands only, also where it faults and leaves the
old value. -/
theorem exec_isAdd_readReg_congr {d : RegName} {o2 : Nat} (hi : isAdd i d.index o2)
    (hx : ∀ q, readsReg i q → s'.readReg q = s.readReg q)
    (he : exec i s = .next t) (he' : exec i s' = .next t') : t'.readReg d = t.readReg d := by
  have hd : s'.readReg d = s.readReg d := hx d (.inr (.inl ⟨o2, hi⟩))
  rw [exec_isAdd hi] at he he'
  cases he; cases he'
  rcases regIndex_cases o2 with ⟨r, rfl, _⟩ | ⟨hbad, _⟩
  · have hr : s'.readReg r = s.readReg r := hx r (.inr (.inr ⟨d.index, hi⟩))
    simp [addRegs_of_index, hd, hr]
  · simp [addRegs_of_gt _ (.inr hbad), hd]

/-- A written register gets a value that depends on no register the instruction does not read. -/
theorem exec_readReg_congr_of_writesReg {q : RegName} (hwf : i.wf = true) (h : sameButRegisters s s')
    (hx : ∀ q, readsReg i q → s'.readReg q = s.readReg q) (hw : writesReg i q)
    (he : exec i s = .next t) (he' : exec i s' = .next t') : t'.readReg q = t.readReg q := by
  rcases hw with ⟨a, hi⟩ | ⟨o2, hi⟩
  · rw [exec_isLoad_readReg hi hwf he, exec_isLoad_readReg hi hwf he', h.memRead]
  · exact exec_isAdd_readReg_congr hi hx he he'

end

/-! ### The statements about the registers (10_state.md R11, R12) -/

theorem step_readReg_changed {s t : State} {q : RegName} (hst : step s = .next t) (hne : t.readReg q ≠ s.readReg q) :
    ∃ i, s.runs i ∧ writesReg i q := by
  rcases step_cases s with ⟨_, he⟩ | ⟨_, _, he⟩ | ⟨_, _, he⟩ | ⟨i, hr, he⟩ <;> rw [he] at hst
  · cases hst; exact absurd rfl hne
  · cases hst; exact absurd rfl hne
  · cases hst; exact absurd rfl hne
  · refine ⟨i, hr, Classical.byContradiction fun hw => hne ?_⟩
    exact (exec_readReg_of_not_writesReg hst hw).trans (State.fetch_readReg s q)

/-- Settles O33: the frame of the registers, and non-interference of those an instruction does not read. -/
theorem registersReadAndWritten : Obligations.RegistersReadAndWritten := by
  refine ⟨fun s t q => step_readReg_changed, ?_, fun s i o1 o2 hr => ?_, fun s i hr hbad => ?_⟩
  · intro s s' t t' i hr h hx hst hst'
    rw [step_of_runs hr] at hst
    rw [step_of_runs (h.runs hr)] at hst'
    exact ⟨h.fetch.exec hx hst hst', fun q hw => exec_readReg_congr_of_writesReg hr.wf h.fetch hx hw hst hst'⟩
  · refine ⟨?_, fun hi => hi.operands_le hr.wf⟩
    rintro (hi | hi) <;> exact (hi.operands_le hr.wf).1
  · exact ⟨_, (step_of_runs hr).trans (exec_of_badIndex hbad s.fetch), rfl, rfl, rfl⟩

theorem State.reset_readReg (q : RegName) : State.reset.readReg q = 0 := by cases q <;> rfl

/-- Settles O40: loading an image changes no register. -/
theorem registersAreZeroAtLaunch : Obligations.RegistersAreZeroAtLaunch :=
  ⟨State.reset_readReg, fun image q => (State.load_readReg State.reset image q).trans (State.reset_readReg q)⟩

end Machine

end Sys2Proof
end

section
/-! PROOFS. The statement about the write primitive (20_memory.md R34), and what it needs: which operations leave
the cells unchanged, and that only a STORE changes the cell it names. -/

namespace Sys2Proof.Machine

theorem sameButMemory_memWrite (s : State) (a : Nat) (v : Word) : sameButMemory s (s.memWrite a v) :=
  ⟨rfl, rfl, rfl, rfl, rfl⟩

/-! ### What the shared operations leave of the memory -/

@[simp] theorem loadCell_memRead (o1 o2 : Nat) (s : State) (a : Nat) :
    (loadCell o1 o2 s).memRead a = s.memRead a := by
  rcases loadCell_cases o1 o2 s with ⟨q, _, _, he⟩ | ⟨_, he⟩ <;> simp [he]

@[simp] theorem addRegs_memRead (o1 o2 : Nat) (s : State) (a : Nat) :
    (addRegs o1 o2 s).memRead a = s.memRead a := by
  rcases addRegs_cases o1 o2 s with ⟨d, r, _, _, he⟩ | ⟨_, he⟩ <;> simp [he]

theorem storeCell_memRead_of_ne {o2 a : Nat} (h : a ≠ o2) (o1 : Nat) (s : State) :
    (storeCell o1 o2 s).memRead a = s.memRead a := by
  rcases storeCell_cases o1 o2 s with ⟨q, _, _, he⟩ | ⟨_, he⟩
  · rw [he, State.memRead_memWrite_other s h]
  · simp [he]

/-- An instruction changes no cell but the one a STORE names. -/
theorem exec_memRead_of_not_isStore {i : Instr} {s t : State} {a : Nat} (he : exec i s = .next t)
    (hw : ∀ r, ¬ isStore i r a) : t.memRead a = s.memRead a := by
  rcases instr_cases i with rfl | ⟨r, b, hi⟩ | ⟨r, b, hi⟩ | ⟨d, r, hi⟩ | ⟨u, b, hi⟩
  · cases he; rfl
  · rw [exec_isLoad hi] at he; cases he
    exact loadCell_memRead r b s a
  · rw [exec_isStore hi] at he; cases he
    exact storeCell_memRead_of_ne (by rintro rfl; exact hw r hi) r s
  · rw [exec_isAdd hi] at he; cases he
    exact addRegs_memRead d r s a
  · rw [exec_isJump hi] at he; cases he; rfl

/-! ### The statement about the write primitive (20_memory.md R34) -/

theorem step_memRead_changed {s t : State} {a : Nat} (hst : step s = .next t) (hne : t.memRead a ≠ s.memRead a) :
    ∃ i r, s.runs i ∧ isStore i r a := by
  rcases step_cases s with ⟨_, he⟩ | ⟨_, _, he⟩ | ⟨_, _, he⟩ | ⟨i, hr, he⟩ <;> rw [he] at hst
  · cases hst; exact absurd rfl hne
  · cases hst; exact absurd rfl hne
  · cases hst; exact absurd rfl hne
  · by_contra hw
    have hns : ∀ r, ¬ isStore i r a := fun r hi => hw ⟨i, r, hr, hi⟩
    exact hne ((exec_memRead_of_not_isStore hst hns).trans (State.fetch_memRead s a))

/-- Settles O34: the write primitive by the laws of the canonical memory, its use by the cases of the step. -/
theorem onlyStoreWritesMemory : Obligations.OnlyStoreWritesMemory := by
  refine ⟨fun s a v hwf ha => ?_, fun s t a => step_memRead_changed⟩
  exact ⟨State.memRead_memWrite_self hwf, fun b => State.memRead_memWrite_other s, sameButMemory_memWrite s a v,
    Memory.wf_write (by omega) hwf⟩

end Sys2Proof.Machine
end

section
/-! PROOFS. The statements about the illegal words (30_encoding.md R62, 60_exceptions.md R132) and the composed words
(30_encoding.md R51), and what they need: the opcode of a word by its layout, what an instruction can do to the run
state, and the canonical instruction of a mnemonic with its operands. -/

namespace Sys2Proof

/-! ### Which words decode to no instruction (30_encoding.md R56, R62) -/

theorem classOf_eq_unknown_iff (o : Int) : classOf o = .unknown ↔ o < 0 ∨ 5 ≤ o := by
  rcases classOf_cases o with ⟨ho, h⟩ | ⟨ho, h⟩ | ⟨ho, h⟩ | ⟨ho, h⟩ | ⟨ho, h⟩ | ⟨ho, h⟩ <;>
    simp only [h, reduceCtorEq, true_iff, false_iff] <;> omega

theorem instrOf_isUnknown_iff (w : Word) (l : Layout) (f : Fields) :
    (instrOf w l f).isUnknown = true ↔ classOf f.opcode = .unknown := by
  cases l <;> cases h : classOf f.opcode <;> simp [instrOf, h, Decoded.isUnknown]

/-- The opcode of a word is the word, its hundreds or its thousands, by the layout (R53 to R55). -/
theorem decodeFields_opcode_cases (w : Word) :
    (w.toInt < 100 ∧ (decodeFields w).opcode = w.toInt) ∨
    (100 ≤ w.toInt ∧ w.toInt < 1000 ∧ (decodeFields w).opcode = w.toInt / 100) ∨
    (1000 ≤ w.toInt ∧ (decodeFields w).opcode = w.toInt / 1000) := by
  unfold decodeFields layoutOf
  split_ifs with h1000 h100
  · exact .inr (.inr ⟨h1000, by simp only [layout4]; omega⟩)
  · exact .inr (.inl ⟨h100, by omega, by simp only [layout3]; omega⟩)
  · exact .inl ⟨by omega, rfl⟩

theorem decode_isUnknown_iff_opcode (w : Word) :
    (decode w).isUnknown = true ↔ (decodeFields w).opcode < 0 ∨ 5 ≤ (decodeFields w).opcode :=
  (instrOf_isUnknown_iff w _ _).trans (classOf_eq_unknown_iff _)

namespace Machine

theorem decode_isUnknown_iff_isIllegal (w : Word) : (decode w).isUnknown = true ↔ isIllegal w.toInt := by
  rw [decode_isUnknown_iff_opcode, isIllegal]
  rcases decodeFields_opcode_cases w with ⟨hw, ho⟩ | ⟨hlo, hhi, ho⟩ | ⟨hw, ho⟩ <;> rw [ho] <;> omega

/-! ### What an instruction can do to the run state -/

theorem loadCell_st_cases (o1 o2 : Nat) (s : State) :
    (loadCell o1 o2 s).st = s.st ∨ (loadCell o1 o2 s).st = .faulted .operandIndexOutOfRange := by
  rcases loadCell_cases o1 o2 s with ⟨q, _, _, he⟩ | ⟨_, he⟩ <;> simp [he]

theorem storeCell_st_cases (o1 o2 : Nat) (s : State) :
    (storeCell o1 o2 s).st = s.st ∨ (storeCell o1 o2 s).st = .faulted .operandIndexOutOfRange := by
  rcases storeCell_cases o1 o2 s with ⟨q, _, _, he⟩ | ⟨_, he⟩ <;> simp [he]

theorem addRegs_st_cases (o1 o2 : Nat) (s : State) :
    (addRegs o1 o2 s).st = s.st ∨ (addRegs o1 o2 s).st = .faulted .operandIndexOutOfRange := by
  rcases addRegs_cases o1 o2 s with ⟨d, r, _, _, he⟩ | ⟨_, he⟩ <;> simp [he]

/-- An instruction keeps the run state, halts, or faults on an operand; it raises no other cause. -/
theorem exec_st_cases {i : Instr} {s t : State} (he : exec i s = .next t) :
    t.st = s.st ∨ t.st = .halted ∨ t.st = .faulted .operandIndexOutOfRange := by
  rcases instr_cases i with rfl | ⟨r, a, hi⟩ | ⟨r, a, hi⟩ | ⟨d, r, hi⟩ | ⟨u, a, hi⟩
  · cases he; exact .inr (.inl rfl)
  · rw [exec_isLoad hi] at he; cases he
    exact (loadCell_st_cases r a s).imp_right .inr
  · rw [exec_isStore hi] at he; cases he
    exact (storeCell_st_cases r a s).imp_right .inr
  · rw [exec_isAdd hi] at he; cases he
    exact (addRegs_st_cases d r s).imp_right .inr
  · rw [exec_isJump hi] at he; cases he; exact .inl rfl

/-! ### The fault on an illegal word (60_exceptions.md R132) -/

theorem step_of_isIllegal {s : State} (hf : s.fetches) (hw : isIllegal s.nextWord.toInt) :
    step s = .next (s.fetch.raiseAtInstr .unknownOpcode) := by
  have hu := (decode_isUnknown_iff_isIllegal _).mpr hw
  cases hd : decode s.nextWord with
  | instr i => rw [hd] at hu; cases hu
  | unknown w => exact step_of_unknown hf hd

theorem isIllegal_of_step_unknownOpcode {s t : State} (hr : s.st = .running) (hst : step s = .next t)
    (ht : t.st = .faulted .unknownOpcode) : s.fetches ∧ isIllegal s.nextWord.toInt := by
  rcases step_cases s with ⟨hns, _⟩ | ⟨_, _, he⟩ | ⟨hf, hu, _⟩ | ⟨i, _, he⟩
  · exact absurd hr hns
  · rw [he] at hst; cases hst; cases ht
  · exact ⟨hf, (decode_isUnknown_iff_isIllegal _).mp hu⟩
  · rw [he] at hst
    have hcases := exec_st_cases hst
    simp [ht, hr] at hcases

/-- Settles O6: the illegal words by their opcode in each layout, the fault by the cases of the step. -/
theorem illegalWordsFaultUnknownOpcode : Obligations.IllegalWordsFaultUnknownOpcode := by
  refine ⟨decode_isUnknown_iff_isIllegal, ?_, ?_, fun s hf hw => ?_,
    fun s t => isIllegal_of_step_unknownOpcode⟩
  · exact .inr (.inl (by decide))
  · exact .inr (.inl (by decide))
  · exact ⟨_, step_of_isIllegal hf hw, rfl, rfl, State.fetch_pc_toNat hf.2, State.instrAddr_fetch s, rfl, rfl⟩

/-! ### The composed words (30_encoding.md R51) -/

namespace Asm

/-- The canonical instruction of a mnemonic with its operands. -/
def Mnemonic.canonical : Mnemonic → Nat → Nat → Instr
  | .halt, _, _ => .halt
  | .load, o1, o2 => .load o1 o2
  | .store, o1, o2 => .store o1 o2
  | .add, o1, o2 => .add o1 o2
  | .jump, o1, o2 => .jump o1 o2

/-- A composition is the encoding of the canonical instruction. -/
theorem compose_eq_encodeNat (m : Mnemonic) (o1 o2 : Nat) : compose m o1 o2 = encodeNat (m.canonical o1 o2) := by
  cases m <;> rfl

/-- The operand ranges of a composition are the digits of the canonical encoding. -/
theorem canonical_wf (m : Mnemonic) (o1 o2 : Nat) : (m.canonical o1 o2).wf = composable m o1 o2 := by
  cases m <;> rfl

/-- The model's laws of the encoder, at the canonical instructions. -/
theorem canonical_row_and_roundTrip (m : Mnemonic) (o1 o2 : Nat) :
    Laws.EncodeInRow.Statement (m.canonical o1 o2) ∧ Laws.RoundTrip.Statement (m.canonical o1 o2) := by
  cases m with
  | halt => exact ⟨Laws.EncodeInRow.halt, Laws.RoundTrip.halt⟩
  | load => exact ⟨Laws.EncodeInRow.load o1 o2, Laws.RoundTrip.load o1 o2⟩
  | store => exact ⟨Laws.EncodeInRow.store o1 o2, Laws.RoundTrip.store o1 o2⟩
  | add => exact ⟨Laws.EncodeInRow.add o1 o2, Laws.RoundTrip.add o1 o2⟩
  | jump => exact ⟨Laws.EncodeInRow.jump o1 o2, Laws.RoundTrip.jump o1 o2⟩

section
variable {m : Mnemonic} {o1 o2 : Nat}

theorem decode_compose (h : composable m o1 o2 = true) :
    decode (BitVec.ofNat 32 (compose m o1 o2)) = .instr (m.canonical o1 o2) := by
  rw [← canonical_wf] at h
  rw [compose_eq_encodeNat]
  exact (canonical_row_and_roundTrip m o1 o2).2 h

/-- A composed word lies in the row of its canonical instruction. -/
theorem compose_mem_row (h : composable m o1 o2 = true) :
    (rowRange (m.canonical o1 o2)).1 ≤ compose m o1 o2 ∧ compose m o1 o2 ≤ (rowRange (m.canonical o1 o2)).2 := by
  rw [← canonical_wf] at h
  have hrow := (canonical_row_and_roundTrip m o1 o2).1 h
  rw [encode_toInt h, ← compose_eq_encodeNat] at hrow
  exact_mod_cast hrow

end

end Asm

/-- Settles O29: a composed word is the encoding of its canonical instruction, so it lies in that row and decodes
back. -/
theorem composedWordsAreCanonical : Obligations.ComposedWordsAreCanonical := by
  refine ⟨fun o1 o2 => ⟨rfl, Asm.decode_compose (m := .halt) (o1 := o1) (o2 := o2) rfl⟩, fun o1 o2 h1 h2 => ?_,
    fun o1 o2 h1 h2 => ?_⟩
  · have hops : (isDigit o1 && isTwoDigits o2) = true := by simp [isDigit, isTwoDigits, h1, h2]
    have hload := Asm.compose_mem_row (m := .load) hops
    have hstore := Asm.compose_mem_row (m := .store) hops
    have hjump := Asm.compose_mem_row (m := .jump) hops
    exact ⟨rfl, hload.1, hload.2, Asm.decode_compose (m := .load) hops,
      rfl, hstore.1, hstore.2, Asm.decode_compose (m := .store) hops,
      rfl, hjump.1, hjump.2, Asm.decode_compose (m := .jump) hops⟩
  · have hops : (isDigit o1 && isDigit o2) = true := by simp [isDigit, h1, h2]
    have hadd := Asm.compose_mem_row (m := .add) hops
    exact ⟨rfl, hadd.1, hadd.2, Asm.decode_compose (m := .add) hops⟩

end Machine

end Sys2Proof
end

section
/-! PROOFS. The statements about the fetch and the dispatch (40_cycle_and_halt.md R81, R84), and what they need: that
no instruction writes the ir, when each shared operation faults, and the class of a decoded instruction. -/

namespace Sys2Proof

/-! ### The class of a decoded instruction (30_encoding.md R56) -/

theorem classOf_eq_iff (o : Int) :
    (classOf o = .halt ↔ o = 0) ∧ (classOf o = .load ↔ o = 1) ∧ (classOf o = .store ↔ o = 2) ∧
    (classOf o = .add ↔ o = 3) ∧ (classOf o = .jump ↔ o = 4) := by
  rcases classOf_cases o with ⟨ho, h⟩ | ⟨ho, h⟩ | ⟨ho, h⟩ | ⟨ho, h⟩ | ⟨ho, h⟩ | ⟨ho, h⟩ <;>
    simp only [h, reduceCtorEq, true_iff, false_iff] <;> omega

/-- The class of an instruction: its encodings are told apart by the layout only. -/
def Instr.cls : Instr → Class
  | .halt => .halt
  | .load _ _ | .loadAlias3 _ _ | .loadAlias1 => .load
  | .store _ _ | .storeAlias3 _ _ | .storeAlias1 => .store
  | .add _ _ | .addAlias4 _ _ | .addAlias1 => .add
  | .jump _ _ | .jumpAlias3 _ _ | .jumpAlias1 => .jump

/-- The class of what the decoder answers. -/
def Decoded.cls : Decoded → Class
  | .instr i => i.cls
  | .unknown _ => .unknown

theorem instrOf_cls (w : Word) (l : Layout) (f : Fields) : (instrOf w l f).cls = classOf f.opcode := by
  cases l <;> cases h : classOf f.opcode <;> simp [instrOf, h, Decoded.cls, Instr.cls]

/-- The class of the decoded instruction is the class of the opcode. -/
theorem decode_cls (w : Word) : (decode w).cls = classOf (decodeFields w).opcode := instrOf_cls w _ _

theorem decodeFields_operands_of_degenerate {w : Word} (h : layoutOf w = .degenerate) :
    (decodeFields w).operand1 = 0 ∧ (decodeFields w).operand2 = 0 := by
  simp [decodeFields, h, layoutDegenerate]

namespace Machine

section
variable {i : Instr} {o1 o2 : Nat}

theorem isLoad.cls_eq (h : isLoad i o1 o2) : i.cls = .load := by
  rcases h with rfl | rfl | ⟨rfl, _, _⟩ <;> rfl

theorem isStore.cls_eq (h : isStore i o1 o2) : i.cls = .store := by
  rcases h with rfl | rfl | ⟨rfl, _, _⟩ <;> rfl

theorem isAdd.cls_eq (h : isAdd i o1 o2) : i.cls = .add := by
  rcases h with rfl | rfl | ⟨rfl, _, _⟩ <;> rfl

theorem isJump.cls_eq (h : isJump i o1 o2) : i.cls = .jump := by
  rcases h with rfl | rfl | ⟨rfl, _, _⟩ <;> rfl

end

/-- The word decodes to an instruction of this class with the decoded operands; of the class unknown, to itself. -/
def decodesTo (w : Word) : Class → Prop
  | .halt => decode w = .instr .halt
  | .load => ∃ i, decode w = .instr i ∧ isLoad i (decodeFields w).operand1 (decodeFields w).operand2
  | .store => ∃ i, decode w = .instr i ∧ isStore i (decodeFields w).operand1 (decodeFields w).operand2
  | .add => ∃ i, decode w = .instr i ∧ isAdd i (decodeFields w).operand1 (decodeFields w).operand2
  | .jump => ∃ i, decode w = .instr i ∧ isJump i (decodeFields w).operand1 (decodeFields w).operand2
  | .unknown => decode w = .unknown w

theorem decodesTo_classOf (w : Word) : decodesTo w (classOf (decodeFields w).opcode) := by
  cases hl : layoutOf w with
  | fourDigit => cases hc : classOf (decodeFields w).opcode <;>
      simp [decodesTo, decode, hl, instrOf, hc, isLoad, isStore, isAdd, isJump]
  | threeDigit => cases hc : classOf (decodeFields w).opcode <;>
      simp [decodesTo, decode, hl, instrOf, hc, isLoad, isStore, isAdd, isJump]
  | degenerate =>
    have hops := decodeFields_operands_of_degenerate hl
    cases hc : classOf (decodeFields w).opcode <;>
      simp [decodesTo, decode, hl, instrOf, hc, isLoad, isStore, isAdd, isJump, hops]

theorem decodesTo.cls_eq {w : Word} {c : Class} (h : decodesTo w c) : (decode w).cls = c := by
  cases c with
  | halt => rw [show decode w = _ from h]; rfl
  | unknown => rw [show decode w = _ from h]; rfl
  | load => obtain ⟨i, hd, hi⟩ := h; rw [hd]; exact hi.cls_eq
  | store => obtain ⟨i, hd, hi⟩ := h; rw [hd]; exact hi.cls_eq
  | add => obtain ⟨i, hd, hi⟩ := h; rw [hd]; exact hi.cls_eq
  | jump => obtain ⟨i, hd, hi⟩ := h; rw [hd]; exact hi.cls_eq

/-- The class of the opcode decides, both ways, what a word decodes to. -/
theorem classOf_opcode_eq_iff (w : Word) (c : Class) : classOf (decodeFields w).opcode = c ↔ decodesTo w c :=
  ⟨fun h => h ▸ decodesTo_classOf w, fun h => (decode_cls w).symm.trans h.cls_eq⟩

/-! ### The ir and the run state after the execution -/

@[simp] theorem loadCell_ir (o1 o2 : Nat) (s : State) : (loadCell o1 o2 s).ir = s.ir := by
  rcases loadCell_cases o1 o2 s with ⟨q, _, _, he⟩ | ⟨_, he⟩ <;> simp [he]

@[simp] theorem storeCell_ir (o1 o2 : Nat) (s : State) : (storeCell o1 o2 s).ir = s.ir := by
  rcases storeCell_cases o1 o2 s with ⟨q, _, _, he⟩ | ⟨_, he⟩ <;> simp [he]

@[simp] theorem addRegs_ir (o1 o2 : Nat) (s : State) : (addRegs o1 o2 s).ir = s.ir := by
  rcases addRegs_cases o1 o2 s with ⟨d, r, _, _, he⟩ | ⟨_, he⟩ <;> simp [he]

/-- No instruction writes the ir. -/
theorem exec_ir {i : Instr} {s t : State} (he : exec i s = .next t) : t.ir = s.ir := by
  rcases instr_cases i with rfl | ⟨r, a, hi⟩ | ⟨r, a, hi⟩ | ⟨d, r, hi⟩ | ⟨u, a, hi⟩
  · cases he; rfl
  · rw [exec_isLoad hi] at he; cases he; exact loadCell_ir r a s
  · rw [exec_isStore hi] at he; cases he; exact storeCell_ir r a s
  · rw [exec_isAdd hi] at he; cases he; exact addRegs_ir d r s
  · rw [exec_isJump hi] at he; cases he; rfl

theorem execDecoded_ir {d : Decoded} {s t : State} (he : execDecoded d s = .next t) : t.ir = s.ir := by
  cases d with
  | instr i => exact exec_ir he
  | unknown w => cases he; rfl

theorem execDecoded_total (d : Decoded) (s : State) : ∃ t, execDecoded d s = .next t := by
  cases d with
  | instr i => exact exec_total i s
  | unknown w => exact ⟨_, rfl⟩

theorem loadCell_st (o1 o2 : Nat) (s : State) :
    (loadCell o1 o2 s).st = if 3 < o1 ∨ 256 ≤ o2 then .faulted .operandIndexOutOfRange else s.st := by
  rcases loadCell_cases o1 o2 s with ⟨q, rfl, ha, he⟩ | ⟨hbad, he⟩
  · have := q.index_le
    rw [he, if_neg (by omega), State.writeReg_st]
  · rw [he, if_pos hbad, State.raiseAtInstr_st]

theorem storeCell_st (o1 o2 : Nat) (s : State) :
    (storeCell o1 o2 s).st = if 3 < o1 ∨ 256 ≤ o2 then .faulted .operandIndexOutOfRange else s.st := by
  rcases storeCell_cases o1 o2 s with ⟨q, rfl, ha, he⟩ | ⟨hbad, he⟩
  · have := q.index_le
    rw [he, if_neg (by omega), State.memWrite_st]
  · rw [he, if_pos hbad, State.raiseAtInstr_st]

theorem addRegs_st (o1 o2 : Nat) (s : State) :
    (addRegs o1 o2 s).st = if 3 < o1 ∨ 3 < o2 then .faulted .operandIndexOutOfRange else s.st := by
  rcases addRegs_cases o1 o2 s with ⟨d, r, rfl, rfl, he⟩ | ⟨hbad, he⟩
  · have := d.index_le
    have := r.index_le
    rw [he, if_neg (by omega), State.writeReg_st]
  · rw [he, if_pos hbad, State.raiseAtInstr_st]

/-- An instruction's effect on the run state and the pc depends on no register and no cell. -/
theorem exec_st_pc_congr {i : Instr} {s s' t t' : State} (hst : s'.st = s.st) (hpc : s'.pc = s.pc)
    (he : exec i s = .next t) (he' : exec i s' = .next t') : t'.st = t.st ∧ t'.pc = t.pc := by
  rcases instr_cases i with rfl | ⟨r, a, hi⟩ | ⟨r, a, hi⟩ | ⟨d, r, hi⟩ | ⟨u, a, hi⟩
  · cases he; cases he'
    exact ⟨rfl, hpc⟩
  · rw [exec_isLoad hi] at he he'; cases he; cases he'
    simp [loadCell_st, hst, hpc]
  · rw [exec_isStore hi] at he he'; cases he; cases he'
    simp [storeCell_st, hst, hpc]
  · rw [exec_isAdd hi] at he he'; cases he; cases he'
    simp [addRegs_st, hst, hpc]
  · rw [exec_isJump hi] at he he'; cases he; cases he'
    exact ⟨hst, rfl⟩

theorem execDecoded_st_pc_congr {d : Decoded} {s s' t t' : State} (hst : s'.st = s.st) (hpc : s'.pc = s.pc)
    (he : execDecoded d s = .next t) (he' : execDecoded d s' = .next t') : t'.st = t.st ∧ t'.pc = t.pc := by
  cases d with
  | instr i => exact exec_st_pc_congr hst hpc he he'
  | unknown w => cases he; cases he'; exact ⟨rfl, hpc⟩

/-! ### The fetch (40_cycle_and_halt.md R81) -/

/-- The step that fetches a word leaves it in the ir. -/
theorem step_ir_of_fetches {s t : State} (hf : s.fetches) (hst : step s = .next t) : t.ir = s.nextWord :=
  execDecoded_ir ((step_of_fetches hf).symm.trans hst)

theorem step_total_of_fetches {s : State} (hf : s.fetches) : ∃ t, step s = .next t := by
  rw [step_of_fetches hf]
  exact execDecoded_total _ _

/-- Settles O2: the step out of bounds only raises the fault; after a fetch no execution writes the ir. -/
theorem fetchChecksTheBoundThenReads : Obligations.FetchChecksTheBoundThenReads := by
  refine ⟨fun s hr hpc => ?_, fun s hinv hpc => ?_, fun s hr hpc => ?_⟩
  · exact ⟨_, step_outOfBounds hr hpc, rfl, rfl, rfl, rfl, rfl⟩
  · have hle : s.pc.toNat ≤ 256 := hinv.1
    omega
  · have hf : s.fetches := ⟨hr, hpc⟩
    obtain ⟨t, hst⟩ := step_total_of_fetches hf
    exact ⟨t, hst, step_ir_of_fetches hf hst⟩

/-! ### The dispatch (40_cycle_and_halt.md R84) -/

/-- Two steps that fetch the same word at the same pc end in the same run state, pc and ir. -/
theorem step_st_pc_ir_congr {s s' t t' : State} (hf : s.fetches) (hf' : s'.fetches) (hpc : s'.pc = s.pc)
    (hw : s'.nextWord = s.nextWord) (hst : step s = .next t) (hst' : step s' = .next t') :
    t'.st = t.st ∧ t'.pc = t.pc ∧ t'.ir = t.ir := by
  have hir : t'.ir = t.ir := by rw [step_ir_of_fetches hf' hst', step_ir_of_fetches hf hst, hw]
  rw [step_of_fetches hf] at hst
  rw [step_of_fetches hf', hw] at hst'
  have hrun : s'.fetch.st = s.fetch.st := hf'.1.trans hf.1.symm
  have hnext : s'.fetch.pc = s.fetch.pc := by rw [State.fetch_pc, State.fetch_pc, hpc]
  obtain ⟨hst_eq, hpc_eq⟩ := execDecoded_st_pc_congr hrun hnext hst hst'
  exact ⟨hst_eq, hpc_eq, hir⟩

/-- Settles O24: the class of the opcode decides the arm both ways, and no arm's effect on the run state, the pc and
the ir depends on a register or a cell. -/
theorem dispatchOnTheOpcodeAlone : Obligations.DispatchOnTheOpcodeAlone := by
  refine ⟨fun w => ?_, fun s t hf hd hst => ?_, fun s s' t t' => step_st_pc_ir_congr⟩
  · obtain ⟨hhalt, hload, hstore, hadd, hjump⟩ := classOf_eq_iff (decodeFields w).opcode
    have hunknown := classOf_eq_unknown_iff (decodeFields w).opcode
    have hdec := classOf_opcode_eq_iff w
    exact ⟨hhalt.symm.trans (hdec .halt), hload.symm.trans (hdec .load), hstore.symm.trans (hdec .store),
      hadd.symm.trans (hdec .add), hjump.symm.trans (hdec .jump), hunknown.symm.trans (hdec .unknown)⟩
  · rw [step_of_unknown hf hd] at hst
    cases hst
    rfl

end Machine

end Sys2Proof
end

section
/-! PROOFS. The statement about the addressing mode (41_load_store.md R102), and what it needs: the whole next state
of a step that runs a LOAD or a STORE of a named register. -/

namespace Sys2Proof.Machine

section
variable {s : State} {i : Instr} {q : RegName} {a : Nat}

/-- A step that runs a LOAD fetches, then writes the cell at operand2 to the register. -/
theorem step_of_runs_isLoad (hr : s.runs i) (hi : isLoad i q.index a) :
    step s = .next (s.fetch.writeReg q (s.memRead a)) := by
  have ha := (hi.operands_le hr.wf).2
  rw [step_of_runs hr, exec_isLoad hi, loadCell_of_index q s.fetch (by omega), State.fetch_memRead]

/-- A step that runs a STORE fetches, then writes the register to the cell at operand2. -/
theorem step_of_runs_isStore (hr : s.runs i) (hi : isStore i q.index a) :
    step s = .next (s.fetch.memWrite a (s.readReg q)) := by
  have ha := (hi.operands_le hr.wf).2
  rw [step_of_runs hr, exec_isStore hi, storeCell_of_index q s.fetch (by omega), State.fetch_readReg]

end

/-- Settles O20: a decoded operand2 is at most 99, so it passes the address check and is the address; the next state
is then one register write or one memory write on the fetched state. -/
theorem addressingIsAbsoluteDirect : Obligations.AddressingIsAbsoluteDirect := by
  refine ⟨fun s i q a hr hi => ⟨(hi.operands_le hr.wf).2, _, step_of_runs_isLoad hr hi, ?_, ?_, ?_⟩,
    fun s i q a hr hwf hi => ⟨(hi.operands_le hr.wf).2, _, step_of_runs_isStore hr hi, ?_, ?_, ?_⟩⟩
  · exact State.readReg_writeReg_self s.fetch q _
  · exact fun p hp => State.readReg_writeReg_other s.fetch _ hp
  · exact fun _ => rfl
  · exact State.memRead_memWrite_self (s := s.fetch) hwf
  · exact fun b hb => State.memRead_memWrite_other s.fetch hb
  · exact fun _ => rfl

end Sys2Proof.Machine
end

section
/-! PROOFS. The statement about the loader (70_reset_and_hazards.md R162), and what it needs: which cells a load from
any address on writes, and that the others read as before. -/

namespace Sys2Proof.Machine

theorem Memory.loadFrom_cons_of_lt {a : Nat} (w : Word) (ws : List Word) (m : Memory) (ha : a < 256) :
    Memory.loadFrom a (w :: ws) m = Memory.loadFrom (a + 1) ws (Memory.write m a w) := if_pos ha

theorem Memory.loadFrom_cons_of_ge {a : Nat} (w : Word) (ws : List Word) (m : Memory) (ha : 256 ≤ a) :
    Memory.loadFrom a (w :: ws) m = m := if_neg (Nat.not_lt.mpr ha)

/-- A load from `a` on leaves alone the cells below `a`, past the words, and outside memory. -/
theorem Memory.read_loadFrom_other {ws : List Word} {a b : Nat} (m : Memory)
    (h : b < a ∨ a + ws.length ≤ b ∨ 256 ≤ b) : Memory.read (Memory.loadFrom a ws m) b = Memory.read m b := by
  induction ws generalizing a m with
  | nil => rfl
  | cons w ws ih =>
    rw [List.length_cons] at h
    rcases Nat.lt_or_ge a 256 with ha | ha
    · rw [Memory.loadFrom_cons_of_lt w ws m ha, ih _ (by omega), Memory.read_write_other m (by omega)]
    · rw [Memory.loadFrom_cons_of_ge w ws m ha]

/-- A load from `a` on makes the cell `i` places further read as word `i`, inside memory: the words after it are
written above it. -/
theorem Memory.read_loadFrom_getElem? {ws : List Word} {a i : Nat} {w : Word} {m : Memory} (hm : Memory.wf m = true)
    (hw : ws[i]? = some w) (hlt : a + i < 256) : Memory.read (Memory.loadFrom a ws m) (a + i) = w := by
  induction ws generalizing a i m with
  | nil => simp at hw
  | cons u ws ih =>
    have ha : a < 256 := by omega
    rw [Memory.loadFrom_cons_of_lt u ws m ha]
    cases i with
    | zero =>
      obtain rfl : u = w := by simpa using hw
      rw [Nat.add_zero a, Memory.read_loadFrom_other _ (.inl (Nat.lt_add_one a)), Memory.read_write_self hm]
    | succ i =>
      rw [show a + (i + 1) = a + 1 + i by omega]
      exact ih (Memory.wf_write ha hm) (by simpa using hw) (by omega)

theorem State.load_memRead_getElem? {s : State} {image : List Word} {a : Nat} {w : Word} (hwf : s.mem.wf = true)
    (hw : image[a]? = some w) (ha : a < 256) : (s.load image).memRead a = w := by
  have h := Memory.read_loadFrom_getElem? (a := 0) hwf hw (by omega)
  rwa [Nat.zero_add] at h

theorem State.load_memRead_other (s : State) {image : List Word} {a : Nat} (h : image.length ≤ a ∨ 256 ≤ a) :
    (s.load image).memRead a = s.memRead a := Memory.read_loadFrom_other s.mem (by omega)

theorem sameButMemory_load (s : State) (image : List Word) : sameButMemory s (s.load image) :=
  ⟨State.load_x s image, State.load_pc s image, State.load_ir s image, State.load_st s image,
    State.load_faultAddr s image⟩

/-- The cells of a launch state past the image read as at reset. -/
theorem State.launch_memRead_past {image : List Word} {a : Nat} (h : image.length ≤ a) :
    (State.launch image).memRead a = 0 := State.load_memRead_other State.reset (.inl h)

/-- Settles O41: a load writes the words upward from cell 0, so no later word reaches a cell written before, and the
cap at 256 leaves the rest. -/
theorem loaderSetsTheCells : Obligations.LoaderSetsTheCells :=
  ⟨fun s image _ hwf => ⟨fun _ => State.load_memRead_getElem? hwf, State.load_memRead_other s,
      sameButMemory_load s image⟩,
    fun _ _ => State.launch_memRead_past, fun a => State.launch_memRead_past (Nat.zero_le a)⟩

end Sys2Proof.Machine
end

section
/-! PROOFS. The statements about the decoder and the encoder (30_encoding.md R56 to R59 and section 3), and what they
need: that the number of a decoded instruction is the word, so that decoding and encoding determine each other. -/

namespace Sys2Proof

/-! ### The number of a decoded instruction (R53 to R55) -/

/-- The number that the fields spell in a layout, by the compositions of R53 to R55. -/
def Fields.value (f : Fields) : Layout → Int
  | .fourDigit => f.opcode * 1000 + f.operand1 * 100 + f.operand2
  | .threeDigit => f.opcode * 100 + f.operand1 * 10 + f.operand2
  | .degenerate => f.opcode

/-- The fields of a word spell the word. -/
theorem decodeFields_value (w : Word) : (decodeFields w).value (layoutOf w) = w.toInt := by
  unfold decodeFields layoutOf
  split_ifs with h1000 h100
  · simp only [Fields.value, layout4]; omega
  · simp only [Fields.value, layout3]; omega
  · rfl

/-- Only in the degenerate layout is the opcode 0: the others begin with a digit that is not 0. -/
theorem layoutOf_of_opcode_zero {w : Word} (h : (decodeFields w).opcode = 0) : layoutOf w = .degenerate := by
  have hop := decodeFields_opcode_cases w
  rw [layoutOf, if_neg (by omega), if_neg (by omega)]

/-- The number of the instruction of a word is what the word's fields spell. -/
theorem encodeNat_of_instrOf {w : Word} {l : Layout} {f : Fields} {i : Instr} (h : instrOf w l f = .instr i)
    (hzero : f.opcode = 0 → l = .degenerate) : (encodeNat i : Int) = f.value l := by
  rcases classOf_cases f.opcode with ⟨ho, hc⟩ | ⟨ho, hc⟩ | ⟨ho, hc⟩ | ⟨ho, hc⟩ | ⟨ho, hc⟩ | ⟨_, hc⟩
  case inl =>
    simp only [instrOf, hc, Decoded.instr.injEq] at h
    rw [← h, hzero ho, Fields.value, ho]
    rfl
  all_goals
    cases l <;> simp only [instrOf, hc, Decoded.instr.injEq, reduceCtorEq] at h <;> subst h <;>
      simp [encodeNat, Fields.value, ho]

/-- A word that decodes to an instruction has the instruction's number as its value. -/
theorem toInt_of_decode {w : Word} {i : Instr} (h : decode w = .instr i) : w.toInt = encodeNat i := by
  rw [encodeNat_of_instrOf h layoutOf_of_opcode_zero, decodeFields_value]

/-! ### Decoding and encoding determine each other (R59) -/

/-- The model's lemmas for the rows, as one statement of every instruction. -/
theorem roundTrip (i : Instr) : Laws.RoundTrip.Statement i := by
  cases i with
  | halt => exact Laws.RoundTrip.halt
  | load r aa => exact Laws.RoundTrip.load r aa
  | loadAlias3 r a => exact Laws.RoundTrip.loadAlias3 r a
  | loadAlias1 => exact Laws.RoundTrip.loadAlias1
  | store r aa => exact Laws.RoundTrip.store r aa
  | storeAlias3 r a => exact Laws.RoundTrip.storeAlias3 r a
  | storeAlias1 => exact Laws.RoundTrip.storeAlias1
  | add d s => exact Laws.RoundTrip.add d s
  | addAlias4 d ss => exact Laws.RoundTrip.addAlias4 d ss
  | addAlias1 => exact Laws.RoundTrip.addAlias1
  | jump u aa => exact Laws.RoundTrip.jump u aa
  | jumpAlias3 u a => exact Laws.RoundTrip.jumpAlias3 u a
  | jumpAlias1 => exact Laws.RoundTrip.jumpAlias1

/-- Settles O25: the round trip of each row. -/
theorem decodeOfEncode : Obligations.DecodeOfEncode := roundTrip

/-- Settles O26: a decoded instruction fits its digits, and its number is the word. -/
theorem encodeOfDecode : Obligations.EncodeOfDecode := fun _ _ h =>
  ⟨decode_wf h, (word_eq_ofNat (toInt_of_decode h)).symm⟩

theorem decode_of_toInt {w : Word} {i : Instr} (hwf : i.wf = true) (h : w.toInt = encodeNat i) :
    decode w = .instr i := by
  rw [word_eq_ofNat h]
  exact roundTrip i hwf

/-- The words of an instruction by their value. -/
theorem decode_eq_instr_iff {w : Word} {i : Instr} :
    decode w = .instr i ↔ i.wf = true ∧ w.toInt = encodeNat i :=
  ⟨fun h => ⟨decode_wf h, toInt_of_decode h⟩, fun ⟨hwf, h⟩ => decode_of_toInt hwf h⟩

/-- Settles O27: the model's lemma of each row. -/
theorem encodedWordsLieInTheirRow : Obligations.EncodedWordsLieInTheirRow := fun i => by
  cases i with
  | halt => exact Laws.EncodeInRow.halt
  | load r aa => exact Laws.EncodeInRow.load r aa
  | loadAlias3 r a => exact Laws.EncodeInRow.loadAlias3 r a
  | loadAlias1 => exact Laws.EncodeInRow.loadAlias1
  | store r aa => exact Laws.EncodeInRow.store r aa
  | storeAlias3 r a => exact Laws.EncodeInRow.storeAlias3 r a
  | storeAlias1 => exact Laws.EncodeInRow.storeAlias1
  | add d s => exact Laws.EncodeInRow.add d s
  | addAlias4 d ss => exact Laws.EncodeInRow.addAlias4 d ss
  | addAlias1 => exact Laws.EncodeInRow.addAlias1
  | jump u aa => exact Laws.EncodeInRow.jump u aa
  | jumpAlias3 u a => exact Laws.EncodeInRow.jumpAlias3 u a
  | jumpAlias1 => exact Laws.EncodeInRow.jumpAlias1

/-! ### The opcode map (30_encoding.md section 3) -/

/-- An illegal word decodes to itself, rejected by name. -/
theorem decode_of_isIllegal {w : Word} (h : Machine.isIllegal w.toInt) : decode w = .unknown w := by
  have hu := (Machine.decode_isUnknown_iff_isIllegal w).mpr h
  have hc := (classOf_eq_unknown_iff _).mpr ((decode_isUnknown_iff_opcode w).mp hu)
  exact (Machine.classOf_opcode_eq_iff w .unknown).mp hc

/-- The value of a word of a row with operands `o1` and `o2` is the number of the row's instruction. -/
theorem opcodeMap_row {w : Word} {i : Instr} {v : Int} (hwf : i.wf = true) (hi : (encodeNat i : Int) = v)
    (hw : w.toInt = v) : decode w = .instr i := decode_of_toInt hwf (hw.trans hi.symm)

/-- Settles O22: each row of the map is the number of its instruction, which decodes back. -/
theorem opcodeMap : Obligations.OpcodeMap := by
  intro w
  refine ⟨opcodeMap_row rfl rfl, opcodeMap_row rfl rfl, opcodeMap_row rfl rfl, opcodeMap_row rfl rfl,
    opcodeMap_row rfl rfl, fun o1 o2 h1 h2 => ?_, fun o1 o2 h1 h2 => ?_, decode_of_isIllegal⟩
  · have hops : (isDigit o1 && isDigit o2) = true := by simp [isDigit, h1, h2]
    refine ⟨opcodeMap_row hops ?_, opcodeMap_row hops ?_, opcodeMap_row hops ?_, opcodeMap_row hops ?_⟩ <;>
      simp only [encodeNat] <;> omega
  · have hops : (isDigit o1 && isTwoDigits o2) = true := by simp [isDigit, isTwoDigits, h1, h2]
    refine ⟨opcodeMap_row hops ?_, opcodeMap_row hops ?_, opcodeMap_row hops ?_, opcodeMap_row hops ?_⟩ <;>
      simp only [encodeNat] <;> omega

/-- Settles O28: each word is the number of its instruction; 12345 is above the largest row. -/
theorem wordsWrittenOut : Obligations.WordsWrittenOut :=
  ⟨decode_of_toInt rfl rfl, decode_of_toInt rfl rfl, decode_of_toInt rfl rfl, decode_of_toInt rfl rfl,
    decode_of_toInt rfl rfl, decode_of_toInt rfl rfl, decode_of_toInt rfl rfl, decode_of_toInt rfl rfl,
    decode_of_isIllegal (.inr (.inr (.inr (by decide))))⟩

/-! ### The ranges of the decoder's outputs (R58) -/

theorem layoutOf_of_lt {w : Word} (h : w.toInt < 100) : layoutOf w = .degenerate := by
  rw [layoutOf, if_neg (by omega), if_neg (by omega)]

theorem layoutOf_of_threeDigit {w : Word} (hlo : 100 ≤ w.toInt) (hhi : w.toInt < 1000) :
    layoutOf w = .threeDigit := by
  rw [layoutOf, if_neg (by omega), if_pos hlo]

theorem decodeFields_of_lt {w : Word} (h : w.toInt < 100) : decodeFields w = ⟨w.toInt, 0, 0⟩ := by
  rw [decodeFields, layoutOf_of_lt h, layoutDegenerate]

/-- Settles O23: the operands are digit groups, the opcode what is left of the word, a cell being below 2^31. -/
theorem decoderOutputRanges : Obligations.DecoderOutputRanges := by
  intro w
  have hmax : w.toInt < 2147483648 := BitVec.toInt_lt
  have hop := decodeFields_opcode_cases w
  refine ⟨decodeFields_operand1_le w, decodeFields_operand2_le w, decodeFields_of_lt, fun hlo hhi => ?_, fun h => ?_⟩
  · exact ⟨by omega, by omega, decodeFields_operand2_le_of_threeDigit (layoutOf_of_threeDigit hlo hhi)⟩
  · exact ⟨by omega, by omega⟩

end Sys2Proof
end

section
/-! PROOFS. The statements about the adder (42_add.md R111), and about the result and the frame of each instruction
(R85, R100, R101, R110, R120, R133), and what they need: what the shared operations leave of the fault record. -/

namespace Sys2Proof

/-! ### The adder (42_add.md R111) -/

theorem toInt_wrap_of_fits {v : Int} (hlo : cellMin ≤ v) (hhi : v ≤ cellMax) : (wrap v).toInt = v := by
  rw [cellMin] at hlo
  rw [cellMax] at hhi
  rw [wrap, BitVec.toInt_ofInt]
  exact Int.bmod_eq_of_le (by omega) (by omega)

namespace Machine

/-- The wrapped signed sum is the addition of the cells as 32-bit vectors. -/
theorem aluAdd_eq_add (a b : Word) : aluAdd a b = a + b := by
  rw [aluAdd, wrap, BitVec.ofInt_add, BitVec.ofInt_toInt, BitVec.ofInt_toInt]

theorem toInt_aluAdd_of_sumFits {a b : Word} (h : sumFits a b) : (aluAdd a b).toInt = a.toInt + b.toInt :=
  toInt_wrap_of_fits h.1 h.2

/-- Settles O21: the laws of 32-bit addition, and the sum that fits is not wrapped. -/
theorem adderLaws : Obligations.AdderLaws := by
  refine ⟨fun a b => ?_, fun a b c => ?_, fun a => ?_, fun a b => toInt_aluAdd_of_sumFits, fun a b => ?_⟩
  · rw [aluAdd_eq_add, aluAdd_eq_add, BitVec.add_comm]
  · simp only [aluAdd_eq_add, BitVec.add_assoc]
  · exact (aluAdd_eq_add a 0).trans (BitVec.add_zero a)
  · rw [aluAdd_eq_add, BitVec.toNat_add]

/-! ### What the instructions do -/

/-- Settles O10: HALT only writes the run state. -/
theorem haltSetsHalted : Obligations.HaltSetsHalted := fun s =>
  ⟨s.halt, rfl, State.halt_st s, State.halt_mem s, State.halt_x s, State.halt_pc s, State.halt_ir s,
    State.halt_faultAddr s⟩

/-- Settles O12: an index that names a register and an address inside memory make LOAD one register write. -/
theorem loadCopiesTheCellToTheRegister : Obligations.LoadCopiesTheCellToTheRegister := by
  intro i q a s hi ha
  have he : exec i s = .next (s.writeReg q (s.memRead a)) := by
    rw [exec_isLoad hi, loadCell_of_index q s (by omega)]
  exact ⟨_, he, State.readReg_writeReg_self s q _, fun p hp => State.readReg_writeReg_other s _ hp,
    rfl, rfl, rfl, rfl, rfl⟩

/-- Settles O13: an index that names a register and an address inside memory make STORE one memory write. -/
theorem storeCopiesTheRegisterToTheCell : Obligations.StoreCopiesTheRegisterToTheCell := by
  intro i q a s hi ha
  have he : exec i s = .next (s.memWrite a (s.readReg q)) := by
    rw [exec_isStore hi, storeCell_of_index q s (by omega)]
  exact ⟨_, he, fun hwf => ⟨State.memRead_memWrite_self hwf, Memory.wf_write (by omega) hwf⟩,
    fun b hb => State.memRead_memWrite_other s hb, rfl, rfl, rfl, rfl, rfl⟩

/-- Settles O14: two indices that name registers make ADD one register write of the wrapped sum. -/
theorem addWritesTheSum : Obligations.AddWritesTheSum := by
  intro i d r s hi
  have he : exec i s = .next (s.writeReg d (aluAdd (s.readReg d) (s.readReg r))) := by
    rw [exec_isAdd hi, addRegs_of_index d r s]
  have hd := State.readReg_writeReg_self s d (aluAdd (s.readReg d) (s.readReg r))
  refine ⟨_, he, fun hfits => ?_, hd, fun p hp => State.readReg_writeReg_other s _ hp, rfl, rfl, rfl, rfl, rfl⟩
  rw [hd, toInt_aluAdd_of_sumFits hfits]

/-- Settles O15: a target of at most 99 is not cut by the 9 bits of the pc. -/
theorem jumpSetsThePc : Obligations.JumpSetsThePc := by
  intro i u a s hi ha
  refine ⟨_, exec_isJump hi s, ?_, rfl, rfl, rfl, rfl, rfl⟩
  rw [State.jumpTo_pc, BitVec.toNat_ofNat]
  omega

/-- Settles O16: an index above 3 names no register, so the operation only raises the fault. -/
theorem registerIndexAboveThreeFaults : Obligations.RegisterIndexAboveThreeFaults := by
  rintro i o1 o2 s (⟨hi, h⟩ | ⟨hi, h⟩ | ⟨hi, h⟩)
  · exact exec_of_badIndex (hi.badIndex_iff.mpr h) s
  · exact exec_of_badIndex (hi.badIndex_iff.mpr h) s
  · exact exec_of_badIndex (hi.badIndex_iff.mpr h) s

/-! ### The run state and the record when no index is out of range -/

theorem loadCell_of_inRange {o1 o2 : Nat} (s : State) (h1 : ¬ 3 < o1) (h2 : o2 ≤ 255) :
    (loadCell o1 o2 s).st = s.st ∧ (loadCell o1 o2 s).faultAddr = s.faultAddr := by
  rcases loadCell_cases o1 o2 s with ⟨q, _, _, he⟩ | ⟨hbad, _⟩
  · rw [he]; exact ⟨rfl, rfl⟩
  · omega

theorem storeCell_of_inRange {o1 o2 : Nat} (s : State) (h1 : ¬ 3 < o1) (h2 : o2 ≤ 255) :
    (storeCell o1 o2 s).st = s.st ∧ (storeCell o1 o2 s).faultAddr = s.faultAddr := by
  rcases storeCell_cases o1 o2 s with ⟨q, _, _, he⟩ | ⟨hbad, _⟩
  · rw [he]; exact ⟨rfl, rfl⟩
  · omega

theorem addRegs_of_inRange {o1 o2 : Nat} (s : State) (h : ¬ (3 < o1 ∨ 3 < o2)) :
    (addRegs o1 o2 s).st = s.st ∧ (addRegs o1 o2 s).faultAddr = s.faultAddr := by
  rcases addRegs_cases o1 o2 s with ⟨d, r, _, _, he⟩ | ⟨hbad, _⟩
  · rw [he]; exact ⟨rfl, rfl⟩
  · exact absurd hbad h

/-- An instruction other than HALT whose indices are in range keeps the run state and the record. -/
theorem exec_of_goodIndex {i : Instr} {s t : State} (hwf : i.wf = true) (hgood : badIndex i = false)
    (he : exec i s = .next t) :
    (t.st = s.st ∨ (i = .halt ∧ t.st = .halted)) ∧ t.faultAddr = s.faultAddr := by
  have hngood : ¬ badIndex i = true := by simp [hgood]
  rcases instr_cases i with rfl | ⟨r, a, hi⟩ | ⟨r, a, hi⟩ | ⟨d, r, hi⟩ | ⟨u, a, hi⟩
  · cases he
    exact ⟨.inr ⟨rfl, rfl⟩, rfl⟩
  · have ha := (hi.operands_le hwf).2
    rw [exec_isLoad hi] at he; cases he
    exact (loadCell_of_inRange s (mt hi.badIndex_iff.mpr hngood) (by omega)).imp_left .inl
  · have ha := (hi.operands_le hwf).2
    rw [exec_isStore hi] at he; cases he
    exact (storeCell_of_inRange s (mt hi.badIndex_iff.mpr hngood) (by omega)).imp_left .inl
  · rw [exec_isAdd hi] at he; cases he
    exact (addRegs_of_inRange s (mt hi.badIndex_iff.mpr hngood)).imp_left .inl
  · rw [exec_isJump hi] at he; cases he
    exact ⟨.inl rfl, rfl⟩

/-! ### The frames -/

/-- An instruction that uses a register index above 3 changes no register and no cell. -/
theorem exec_frame_of_badIndex {i : Instr} {s t : State} (hbad : badIndex i = true) (he : exec i s = .next t) :
    t.x = s.x ∧ t.mem = s.mem := by
  rw [exec_of_badIndex hbad] at he
  cases he
  exact ⟨rfl, rfl⟩

theorem sameCells_of_mem_eq {s t : State} (h : t.mem = s.mem) : sameCells s t := fun a => by
  rw [State.memRead, h, State.memRead]

/-- Settles O17: LOAD and ADD are one register write or one fault. -/
theorem frameOfLoadAndAdd : Obligations.FrameOfLoadAndAdd := by
  rintro i o1 o2 s t (hi | hi) he
  · have hbad : badIndex i = true → t.x = s.x := fun hb => (exec_frame_of_badIndex hb he).1
    rw [exec_isLoad hi] at he; cases he
    refine ⟨fun p hp => loadCell_readReg_of_ne hp.symm o2 s, loadCell_memRead o1 o2 s, loadCell_pc o1 o2 s,
      loadCell_ir o1 o2 s, fun hgood h2 => loadCell_of_inRange s (fun h1 => ?_) h2, hbad⟩
    simp [hi.badIndex_iff.mpr h1] at hgood
  · have hbad : badIndex i = true → t.x = s.x := fun hb => (exec_frame_of_badIndex hb he).1
    rw [exec_isAdd hi] at he; cases he
    refine ⟨fun p hp => addRegs_readReg_of_ne hp.symm o2 s, addRegs_memRead o1 o2 s, addRegs_pc o1 o2 s,
      addRegs_ir o1 o2 s, fun hgood _ => addRegs_of_inRange s (fun h => ?_), hbad⟩
    simp [hi.badIndex_iff.mpr h] at hgood

@[simp] theorem storeCell_x (o1 o2 : Nat) (s : State) : (storeCell o1 o2 s).x = s.x := by
  rcases storeCell_cases o1 o2 s with ⟨q, _, _, he⟩ | ⟨_, he⟩ <;> simp [he]

/-- A STORE whose operand2 gives no address stores nothing. -/
theorem storeCell_mem_of_dataAddr_none {o2 : Nat} (o1 : Nat) (s : State) (h : dataAddr o2 = none) :
    (storeCell o1 o2 s).mem = s.mem := by
  rcases storeCell_cases o1 o2 s with ⟨q, _, ha, _⟩ | ⟨_, he⟩
  · rw [dataAddr_of_lt ha] at h
    cases h
  · rw [he, State.raiseAtInstr_mem]

/-- Settles O18: STORE is one memory write at its operand2 or one fault. -/
theorem frameOfStore : Obligations.FrameOfStore := by
  intro i o1 o2 s t hi he
  have hbad : badIndex i = true → sameCells s t := fun hb => sameCells_of_mem_eq (exec_frame_of_badIndex hb he).2
  rw [exec_isStore hi] at he; cases he
  refine ⟨storeCell_x o1 o2 s, storeCell_pc o1 o2 s, storeCell_ir o1 o2 s, fun e hdata b hb => ?_, ?_,
    fun hgood h2 => storeCell_of_inRange s (fun h1 => ?_) h2⟩
  · obtain ⟨rfl, -⟩ := dataAddr_eq_some hdata
    exact storeCell_memRead_of_ne hb o1 s
  · rintro (hb | hnone)
    · exact hbad hb
    · exact sameCells_of_mem_eq (storeCell_mem_of_dataAddr_none o1 s hnone)
  · simp [hi.badIndex_iff.mpr h1] at hgood

/-- Settles O19: HALT writes the run state only, JUMP the pc only. -/
theorem frameOfHaltAndJump : Obligations.FrameOfHaltAndJump := by
  rintro i s t (rfl | ⟨u, a, hi⟩) he
  · cases he
    exact ⟨State.halt_readReg s, State.halt_memRead s, rfl, rfl, fun _ => rfl, fun h => absurd rfl h⟩
  · have hne : i ≠ .halt := by rintro rfl; cases hi.cls_eq
    rw [exec_isJump hi] at he; cases he
    exact ⟨State.jumpTo_readReg s a, State.jumpTo_memRead s a, rfl, rfl, fun h => absurd h hne, fun _ => rfl⟩

/-! ### The run state and the ir (40_cycle_and_halt.md R88) -/

/-- Changing the ir before LOAD changes nothing but the ir after. -/
theorem loadCell_with_ir (o1 o2 : Nat) (s : State) (w : Word) :
    loadCell o1 o2 { s with ir := w } = { loadCell o1 o2 s with ir := w } := by
  rcases loadCell_cases o1 o2 s with ⟨q, rfl, ha, he⟩ | ⟨hbad, he⟩
  · rw [he, loadCell_of_index q _ ha]; rfl
  · rw [he, loadCell_of_outOfRange _ hbad]; rfl

/-- Changing the ir before STORE changes nothing but the ir after. -/
theorem storeCell_with_ir (o1 o2 : Nat) (s : State) (w : Word) :
    storeCell o1 o2 { s with ir := w } = { storeCell o1 o2 s with ir := w } := by
  rcases storeCell_cases o1 o2 s with ⟨q, rfl, ha, he⟩ | ⟨hbad, he⟩
  · rw [he, storeCell_of_index q _ ha]; rfl
  · rw [he, storeCell_of_outOfRange _ hbad]; rfl

/-- Changing the ir before ADD changes nothing but the ir after. -/
theorem addRegs_with_ir (o1 o2 : Nat) (s : State) (w : Word) :
    addRegs o1 o2 { s with ir := w } = { addRegs o1 o2 s with ir := w } := by
  rcases addRegs_cases o1 o2 s with ⟨d, r, rfl, rfl, he⟩ | ⟨hbad, he⟩
  · rw [he, addRegs_of_index d r _]; rfl
  · rw [he, addRegs_of_gt _ hbad]; rfl

theorem exec_with_ir {i : Instr} {s t : State} (w : Word) (he : exec i s = .next t) :
    exec i { s with ir := w } = .next { t with ir := w } := by
  rcases instr_cases i with rfl | ⟨r, a, hi⟩ | ⟨r, a, hi⟩ | ⟨d, r, hi⟩ | ⟨u, a, hi⟩
  · cases he; rfl
  · rw [exec_isLoad hi] at he ⊢; cases he
    rw [loadCell_with_ir]
  · rw [exec_isStore hi] at he ⊢; cases he
    rw [storeCell_with_ir]
  · rw [exec_isAdd hi] at he ⊢; cases he
    rw [addRegs_with_ir]
  · rw [exec_isJump hi] at he ⊢; cases he; rfl

theorem exec_st_cases_of_wf {i : Instr} {s t : State} (hwf : i.wf = true) (he : exec i s = .next t) :
    t.st = s.st ∨ (i = .halt ∧ t.st = .halted) ∨ (badIndex i = true ∧ t.st = .faulted .operandIndexOutOfRange) := by
  cases hb : badIndex i with
  | false => exact (exec_of_goodIndex hwf hb he).1.imp_right .inl
  | true =>
    rw [exec_of_badIndex hb] at he
    cases he
    exact .inr (.inr ⟨rfl, rfl⟩)

/-- Settles O36: the run state by the register indices the instruction uses; no operation looks at the ir. -/
theorem onlyHaltActsOnTheRunState : Obligations.OnlyHaltActsOnTheRunState :=
  ⟨fun _ _ _ hwf he => ⟨exec_ir he, exec_st_cases_of_wf hwf he⟩, fun _ _ _ => exec_with_ir⟩

end Machine

end Sys2Proof
end

section
/-! PROOFS. The statements about the step (40_cycle_and_halt.md R80 to R82, R85; 60_exceptions.md R130, R133, R141),
and what they need: which words use a register index above 3, and each operation of the pseudocode as the machine's. -/

namespace Sys2Proof.Machine

/-! ### The step of a fetching and of a stopped core -/

/-- Settles O1: the cases of the step, and the fields of the fetch. -/
theorem stepRunsTheDecodedInstruction : Obligations.StepRunsTheDecodedInstruction := fun s _ hr =>
  ⟨step_of_runs hr, State.fetch_ir s, State.fetch_pc_toNat hr.1.2, rfl, rfl, rfl, rfl⟩

theorem step_total (s : State) : ∃ t, step s = .next t := by
  rcases step_cases s with ⟨_, he⟩ | ⟨_, _, he⟩ | ⟨_, _, he⟩ | ⟨i, _, he⟩
  · exact ⟨_, he⟩
  · exact ⟨_, he⟩
  · exact ⟨_, he⟩
  · rw [he]
    exact exec_total i s.fetch

/-- Settles O5: every case of the step answers a next state. -/
theorem everyStepAnswersNext : Obligations.EveryStepAnswersNext := step_total

theorem stepMany_succ {s t : State} (k : Nat) (h : step s = .next t) : stepMany (k + 1) s = stepMany k t := by
  rw [stepMany, h]

theorem stepMany_stopped {s : State} (h : s.st ≠ .running) (n : Nat) : stepMany n s = .next s := by
  induction n with
  | zero => rfl
  | succ n ih => rw [stepMany_succ n (step_stopped h), ih]

theorem run_stopped {s : State} (h : s.st ≠ .running) (n : Nat) : run n s = .next (.ended s) := by
  cases n <;> simp [run, h]

/-- Settles O4: a step of a stopped core stays, so any number of them do; a run ends before its first step. -/
theorem stoppedCoreStaysUntilReset : Obligations.StoppedCoreStaysUntilReset := fun _ n h =>
  ⟨stepMany_stopped h n, run_stopped h n, rfl⟩

/-! ### HALT (R85) -/

theorem decode_eq_halt_iff (w : Word) : decode w = .instr .halt ↔ w = 0 :=
  decode_eq_instr_iff.trans ⟨fun h => word_eq_ofNat h.2, fun h => ⟨rfl, by rw [h]; rfl⟩⟩

/-- Settles O11: HALT's number is 0, and it only writes the run state of the fetched state. -/
theorem wordZeroHalts : Obligations.WordZeroHalts := by
  refine ⟨decode_eq_halt_iff, fun s hf hw => ?_⟩
  have hr : s.runs .halt := ⟨hf, (decode_eq_halt_iff _).mpr hw⟩
  exact ⟨s.fetch.halt, step_of_runs hr, rfl, hw, State.fetch_pc_toNat hf.2, rfl, rfl, rfl⟩

/-! ### The words that use a register index above 3 (60_exceptions.md R133) -/

/-- An instruction uses a bad index exactly when its number is in the spec's list. -/
theorem badIndex_iff_isBadIndexWord {i : Instr} (hwf : i.wf = true) :
    badIndex i = true ↔ isBadIndexWord (encodeNat i) := by
  cases i <;> simp [Instr.wf, isDigit, isTwoDigits] at hwf <;>
    simp only [badIndex, isBadIndexWord, encodeNat, Bool.or_eq_true, decide_eq_true_eq, Bool.false_eq_true,
      false_iff] <;> omega

/-- No illegal word is in the list. -/
theorem not_isBadIndexWord_of_isIllegal {v : Int} (h : isIllegal v) : ¬ isBadIndexWord v := by
  unfold isIllegal at h
  unfold isBadIndexWord
  omega

theorem exists_badIndex_of_isBadIndexWord {w : Word} (h : isBadIndexWord w.toInt) :
    ∃ i, decode w = .instr i ∧ badIndex i = true := by
  cases hd : decode w with
  | instr i =>
    rw [toInt_of_decode hd] at h
    exact ⟨i, rfl, (badIndex_iff_isBadIndexWord (decode_wf hd)).mpr h⟩
  | unknown u =>
    have hill := (decode_isUnknown_iff_isIllegal w).mp (by rw [hd]; rfl)
    exact absurd h (not_isBadIndexWord_of_isIllegal hill)

/-- Running an instruction with a bad index is the fetch and the fault. -/
theorem step_of_badIndex {s : State} {i : Instr} (hr : s.runs i) (hbad : badIndex i = true) :
    step s = .next (s.fetch.raise .operandIndexOutOfRange s.pc) := by
  rw [step_of_runs hr, exec_of_badIndex hbad, State.raiseAtInstr, State.instrAddr_fetch]

/-- A step that runs an instruction and ends faulted used a bad index. -/
theorem badIndex_of_isFaulted {s t : State} {i : Instr} (hr : s.runs i) (hst : step s = .next t)
    (hft : t.isFaulted) : badIndex i = true := by
  obtain ⟨c, hc⟩ := hft
  rw [step_of_runs hr] at hst
  have hrun : s.fetch.st = .running := hr.1.1
  rcases exec_st_cases_of_wf hr.wf hst with h | ⟨_, h⟩ | ⟨h, _⟩
  · rw [h, hrun] at hc; cases hc
  · rw [h] at hc; cases hc
  · exact h

/-- All a step of a running core can do, by whether it faults. -/
theorem running_step_cases {s t : State} (hr : s.st = .running) (hst : step s = .next t) :
    (255 < s.pc.toNat ∧ t = s.raise .pcOutOfBounds s.pc) ∨
    (s.fetches ∧ (decode s.nextWord).isUnknown = true ∧ t = s.fetch.raise .unknownOpcode s.pc) ∨
    (∃ i, s.runs i ∧ badIndex i = true ∧ t = s.fetch.raise .operandIndexOutOfRange s.pc) ∨
    (∃ i, s.runs i ∧ badIndex i = false ∧ exec i s.fetch = .next t) := by
  rcases step_cases s with ⟨hns, _⟩ | ⟨_, hpc, he⟩ | ⟨hf, hu, he⟩ | ⟨i, hi, he⟩
  · exact absurd hr hns
  · rw [he] at hst; cases hst
    exact .inl ⟨hpc, rfl⟩
  · rw [he] at hst; cases hst
    exact .inr (.inl ⟨hf, hu, rfl⟩)
  · cases hb : badIndex i with
    | true =>
      rw [step_of_badIndex hi hb] at hst; cases hst
      exact .inr (.inr (.inl ⟨i, hi, hb, rfl⟩))
    | false => exact .inr (.inr (.inr ⟨i, hi, hb, he ▸ hst⟩))

/-- An instruction whose indices are in range raises no fault. -/
theorem not_isFaulted_of_goodIndex {s t : State} {i : Instr} (hr : s.runs i) (hgood : badIndex i = false)
    (he : exec i s.fetch = .next t) : ¬ t.isFaulted := by
  intro hft
  rw [badIndex_of_isFaulted hr ((step_of_runs hr).trans he) hft] at hgood
  cases hgood

/-- Settles O7: the listed words are those whose instruction uses a bad index; no other step raises the cause. -/
theorem badIndexWordsFault : Obligations.BadIndexWordsFault := by
  refine ⟨fun s hf hw => ?_, fun s t hr hst ht => ?_⟩
  · obtain ⟨i, hd, hbad⟩ := exists_badIndex_of_isBadIndexWord hw
    exact step_of_badIndex ⟨hf, hd⟩ hbad
  · rcases running_step_cases hr hst with ⟨_, rfl⟩ | ⟨_, _, rfl⟩ | ⟨i, hi, hbad, _⟩ | ⟨i, hi, hgood, he⟩
    · cases ht
    · cases ht
    · refine ⟨hi.1, ?_⟩
      rw [toInt_of_decode hi.2]
      exact (badIndex_iff_isBadIndexWord hi.wf).mp hbad
    · exact absurd ⟨_, ht⟩ (not_isFaulted_of_goodIndex hi hgood he)

/-! ### Faults are precise (R130, R138) -/

/-- What a fault after the fetch leaves. -/
theorem fetch_raise_precise {s : State} {c c' : FaultCause} (hpc : s.pc.toNat ≤ 255) (hne : c ≠ .pcOutOfBounds)
    (hc : (s.fetch.raise c s.pc).st = .faulted c') :
    c' ≠ .pcOutOfBounds ∧ s.pc.toNat ≤ 255 ∧ (s.fetch.raise c s.pc).pc.toNat = s.pc.toNat + 1 ∧
      (s.fetch.raise c s.pc).ir = s.nextWord := by
  cases hc
  exact ⟨hne, hpc, State.fetch_pc_toNat hpc, rfl⟩

/-- Settles O8: each way to fault is the raise on the state before the fetch or after it. -/
theorem faultsArePrecise : Obligations.FaultsArePrecise := by
  intro s t hr hst
  rcases running_step_cases hr hst with ⟨hpc, rfl⟩ | ⟨hf, _, rfl⟩ | ⟨i, hi, _, rfl⟩ | ⟨i, hi, hgood, he⟩
  · refine ⟨fun c hc => ⟨rfl, rfl, rfl, .inl ?_⟩, fun hn => absurd ⟨_, rfl⟩ hn⟩
    cases hc
    exact ⟨rfl, hpc, rfl, rfl⟩
  · exact ⟨fun c hc => ⟨rfl, rfl, rfl, .inr (fetch_raise_precise hf.2 (by decide) hc)⟩, fun hn => absurd ⟨_, rfl⟩ hn⟩
  · exact ⟨fun c hc => ⟨rfl, rfl, rfl, .inr (fetch_raise_precise hi.1.2 (by decide) hc)⟩,
      fun hn => absurd ⟨_, rfl⟩ hn⟩
  · exact ⟨fun c hc => absurd ⟨c, hc⟩ (not_isFaulted_of_goodIndex hi hgood he),
      fun _ => (exec_of_goodIndex hi.wf hgood he).2⟩

/-! ### The pseudocode of R80 -/

namespace Pseudo

theorem regAt_index (s : State) (q : RegName) : regAt s q.index = s.readReg q := by cases q <;> rfl

theorem setRegAt_index (s : State) (q : RegName) (v : Word) : setRegAt s q.index v = s.writeReg q v := by
  cases q <;> rfl

theorem faultWith_instrAddr (s : State) (c : FaultCause) : faultWith s s.instrAddr c = s.raiseAtInstr c := rfl

section
variable {f : Fields} (s : State)

/-- The address check of the machine (log 5), absent from R80, passes for every decoded operand2. -/
theorem execute_load (hc : classOf f.opcode = .load) (h2 : f.operand2 ≤ 99) :
    execute s.instrAddr f s = loadCell f.operand1 f.operand2 s := by
  simp only [execute, hc]
  rcases loadCell_cases f.operand1 f.operand2 s with ⟨q, h1, _, he⟩ | ⟨hbad, he⟩
  · have := q.index_le
    rw [he, if_neg (by omega), h1, setRegAt_index]
  · rw [he, if_pos (by omega), faultWith_instrAddr]

theorem execute_store (hc : classOf f.opcode = .store) (h2 : f.operand2 ≤ 99) :
    execute s.instrAddr f s = storeCell f.operand1 f.operand2 s := by
  simp only [execute, hc]
  rcases storeCell_cases f.operand1 f.operand2 s with ⟨q, h1, _, he⟩ | ⟨hbad, he⟩
  · have := q.index_le
    rw [he, if_neg (by omega), h1, regAt_index]
  · rw [he, if_pos (by omega), faultWith_instrAddr]

theorem execute_add (hc : classOf f.opcode = .add) :
    execute s.instrAddr f s = addRegs f.operand1 f.operand2 s := by
  simp only [execute, hc]
  rcases addRegs_cases f.operand1 f.operand2 s with ⟨d, r, h1, h2, he⟩ | ⟨hbad, he⟩
  · have := d.index_le
    have := r.index_le
    rw [he, if_neg (by omega), h1, h2, setRegAt_index, regAt_index, regAt_index]
  · rw [he, if_pos hbad, faultWith_instrAddr]

end

/-- Part 3 of R80 is the dispatch on the decoded word, class by class. -/
theorem execDecoded_eq_execute (w : Word) (s : State) :
    execDecoded (decode w) s = .next (execute s.instrAddr (decodeFields w) s) := by
  have h2 := decodeFields_operand2_le w
  have hd := decodesTo_classOf w
  cases hc : classOf (decodeFields w).opcode <;> rw [hc] at hd
  case halt =>
    rw [show decode w = _ from hd]
    simp only [execute, hc]; rfl
  case load =>
    obtain ⟨i, hi, hl⟩ := hd
    rw [hi, execute_load s hc h2]
    exact exec_isLoad hl s
  case store =>
    obtain ⟨i, hi, hl⟩ := hd
    rw [hi, execute_store s hc h2]
    exact exec_isStore hl s
  case add =>
    obtain ⟨i, hi, hl⟩ := hd
    rw [hi, execute_add s hc]
    exact exec_isAdd hl s
  case jump =>
    obtain ⟨i, hi, hl⟩ := hd
    rw [hi]
    simp only [execute, hc]
    exact exec_isJump hl s
  case unknown =>
    rw [show decode w = _ from hd]
    simp only [execute, hc]; rfl

theorem nextState_of_fetches {s : State} (hf : s.fetches) :
    nextState s = execute s.fetch.instrAddr (decodeFields s.nextWord) s.fetch := by
  rw [State.instrAddr_fetch, nextState, if_pos hf.1, runningStep, if_neg (Nat.not_lt.mpr hf.2)]
  rfl

theorem nextState_of_outOfBounds {s : State} (hr : s.st = .running) (h : 255 < s.pc.toNat) :
    nextState s = s.raise .pcOutOfBounds s.pc := by
  rw [nextState, if_pos hr, runningStep, if_pos h]
  rfl

theorem nextState_of_stopped {s : State} (h : s.st ≠ .running) : nextState s = s := if_neg h

end Pseudo

/-- Settles O9: the bound check and the fetch agree line by line, the execution class by class. -/
theorem stepIsThePseudocode : Obligations.StepIsThePseudocode := by
  intro s
  by_cases hr : s.st = .running
  · rcases Nat.lt_or_ge 255 s.pc.toNat with hpc | hpc
    · rw [step_outOfBounds hr hpc, Pseudo.nextState_of_outOfBounds hr hpc]
    · have hf : s.fetches := ⟨hr, hpc⟩
      rw [step_of_fetches hf, Pseudo.nextState_of_fetches hf, Pseudo.execDecoded_eq_execute]
  · rw [step_stopped hr, Pseudo.nextState_of_stopped hr]

end Sys2Proof.Machine
end

section
/-! PROOFS. The statements about every step and every run (10_state.md section 8, 20_memory.md R31 and R40,
40_cycle_and_halt.md R87), and what they need: that an instruction keeps the memory canonical, what the record says
in each run state, and that every update keeps two states equal but for cells from 100 on. -/

namespace Sys2Proof.Machine

/-! ### What an instruction leaves of the memory and the pc -/

@[simp] theorem loadCell_mem (o1 o2 : Nat) (s : State) : (loadCell o1 o2 s).mem = s.mem := by
  rcases loadCell_cases o1 o2 s with ⟨q, _, _, he⟩ | ⟨_, he⟩ <;> simp [he]

@[simp] theorem addRegs_mem (o1 o2 : Nat) (s : State) : (addRegs o1 o2 s).mem = s.mem := by
  rcases addRegs_cases o1 o2 s with ⟨d, r, _, _, he⟩ | ⟨_, he⟩ <;> simp [he]

theorem storeCell_mem_wf {s : State} (o1 o2 : Nat) (h : s.mem.wf = true) : (storeCell o1 o2 s).mem.wf = true := by
  rcases storeCell_cases o1 o2 s with ⟨q, _, ha, he⟩ | ⟨_, he⟩
  · rw [he]; exact Memory.wf_write ha h
  · rw [he]; exact h

/-- An instruction keeps the memory canonical. -/
theorem exec_mem_wf {i : Instr} {s t : State} (h : s.mem.wf = true) (he : exec i s = .next t) : t.mem.wf = true := by
  rcases instr_cases i with rfl | ⟨r, a, hi⟩ | ⟨r, a, hi⟩ | ⟨d, r, hi⟩ | ⟨u, a, hi⟩
  · cases he; exact h
  · rw [exec_isLoad hi] at he; cases he
    rwa [loadCell_mem]
  · rw [exec_isStore hi] at he; cases he
    exact storeCell_mem_wf r a h
  · rw [exec_isAdd hi] at he; cases he
    rwa [addRegs_mem]
  · rw [exec_isJump hi] at he; cases he; exact h

/-- A decoded instruction keeps the pc or jumps to 0 to 99. -/
theorem exec_pc_cases {i : Instr} {s t : State} (hwf : i.wf = true) (he : exec i s = .next t) :
    t.pc = s.pc ∨ t.pc.toNat ≤ 99 := by
  by_cases hj : ∃ u a, isJump i u a
  · obtain ⟨u, a, hj⟩ := hj
    rw [exec_pc_of_jump he hj hwf]
    exact .inr (hj.target_le hwf)
  · exact .inl (exec_pc_of_not_jump he fun u a h => hj ⟨u, a, h⟩)

/-! ### The record in each run state -/

section
variable {s : State}

theorem State.recordAgrees_of_running (h : s.st = .running) : s.recordAgrees ↔ s.faultAddr = 0 := by
  rw [State.recordAgrees, h]

theorem State.recordAgrees_of_halted (h : s.st = .halted) :
    s.recordAgrees ↔ s.faultAddr = 0 ∧ s.ir = 0 ∧ 1 ≤ s.pc.toNat := by
  rw [State.recordAgrees, h]

end

theorem wordUsesBadIndex_of_decode {w : Word} {i : Instr} (hd : decode w = .instr i) :
    wordUsesBadIndex w = badIndex i := by
  rw [wordUsesBadIndex, hd]

/-! ### The invariant (10_state.md section 8) -/

/-- The fetch leaves the pc at most 256. -/
theorem State.fetch_pc_le {s : State} (h : s.pc.toNat ≤ 255) : s.fetch.pc.toNat ≤ 256 := by
  rw [State.fetch_pc_toNat h]
  omega

/-- The step that runs an instruction without a fault keeps the invariant: the record stays 0, and a core that halts
holds the word 0 past its address. -/
theorem inv_of_goodIndex {s t : State} {i : Instr} (hinv : s.Inv) (hr : s.runs i) (hgood : badIndex i = false)
    (he : exec i s.fetch = .next t) : t.Inv := by
  obtain ⟨_, hmem, hrec⟩ := hinv
  have hrun : s.st = .running := hr.1.1
  have hpc := State.fetch_pc_le hr.1.2
  obtain ⟨hst, hfa⟩ := exec_of_goodIndex hr.wf hgood he
  have hfault : t.faultAddr = 0 := hfa.trans ((State.recordAgrees_of_running hrun).mp hrec)
  refine ⟨?_, exec_mem_wf (s := s.fetch) hmem he, ?_⟩
  · rcases exec_pc_cases hr.wf he with h | h
    · rw [h]; exact hpc
    · omega
  · rcases hst with hst | ⟨rfl, hst⟩
    · exact (State.recordAgrees_of_running (hst.trans hrun)).mpr hfault
    · have hir : t.ir = 0 := (exec_ir he).trans ((decode_eq_halt_iff _).mp hr.2)
      have hadv : t.pc.toNat = s.pc.toNat + 1 := by
        cases he
        exact State.fetch_pc_toNat hr.1.2
      exact (State.recordAgrees_of_halted hst).mpr ⟨hfault, hir, by omega⟩

/-- Settles O31: by the cases of the step of a running core; a fault sets the record its cause asks for. -/
theorem stepKeepsTheInvariant : Obligations.StepKeepsTheInvariant := by
  intro s t hinv hst
  by_cases hr : s.st = .running
  · have ⟨hle, hmem, _⟩ := hinv
    rcases running_step_cases hr hst with ⟨hpc, rfl⟩ | ⟨hf, hu, rfl⟩ | ⟨i, hi, hbad, rfl⟩ | ⟨i, hi, hgood, he⟩
    · have h256 : s.pc.toNat = 256 := by omega
      exact ⟨hle, hmem, h256, h256⟩
    · exact ⟨State.fetch_pc_le hf.2, hmem, State.fetch_pc_toNat hf.2, hu⟩
    · exact ⟨State.fetch_pc_le hi.1.2, hmem, State.fetch_pc_toNat hi.1.2,
        (wordUsesBadIndex_of_decode hi.2).trans hbad⟩
    · exact inv_of_goodIndex hinv hi hgood he
  · rw [step_stopped hr] at hst
    cases hst
    exact hinv

/-- Settles O30: the pc and the record are 0 and no cell is listed. -/
theorem resetHasTheInvariant : Obligations.ResetHasTheInvariant := ⟨Nat.zero_le 256, State.reset_mem_wf, rfl⟩

theorem State.launch_inv (image : List Word) : (State.launch image).Inv :=
  ⟨Nat.zero_le 256, Memory.wf_loadFrom State.reset_mem_wf, rfl⟩

/-- What holds of a state and is kept by every step holds after any number of steps. -/
theorem stepMany_keeps {P : State → Prop} (hstep : ∀ s t, P s → step s = .next t → P t) {n : Nat} {s t : State}
    (hs : P s) (hst : stepMany n s = .next t) : P t := by
  induction n generalizing s with
  | zero => cases hst; exact hs
  | succ n ih =>
    obtain ⟨u, hu⟩ := step_total s
    rw [stepMany_succ n hu] at hst
    exact ih (hstep s u hs hu) hst

/-- Settles O32: the launch state has the invariant and every step keeps it. -/
theorem runsFromLaunchKeepTheInvariant : Obligations.RunsFromLaunchKeepTheInvariant := fun image _ _ =>
  stepMany_keeps stepKeepsTheInvariant (State.launch_inv image)

/-! ### The run under fuel (40_cycle_and_halt.md R87) -/

theorem run_succ {s u : State} (n : Nat) (hr : s.st = .running) (hu : step s = .next u) : run (n + 1) s = run n u := by
  rw [run, if_pos hr, hu]

theorem run_zero_of_running {s : State} (hr : s.st = .running) : run 0 s = .next (.outOfFuel s) := if_pos hr

/-- An end state of a fuelled run is stopped, is reached within the fuel, and is the end under more fuel. -/
theorem run_ended {n : Nat} {s t : State} (h : run n s = .next (.ended t)) :
    t.st ≠ .running ∧ (∃ k, k ≤ n ∧ stepMany k s = .next t) ∧ ∀ m, n ≤ m → run m s = .next (.ended t) := by
  induction n generalizing s with
  | zero =>
    by_cases hr : s.st = .running
    · rw [run_zero_of_running hr] at h; cases h
    · rw [run_stopped hr] at h; cases h
      exact ⟨hr, ⟨0, le_refl 0, rfl⟩, fun m _ => run_stopped hr m⟩
  | succ n ih =>
    by_cases hr : s.st = .running
    · obtain ⟨u, hu⟩ := step_total s
      rw [run_succ n hr hu] at h
      obtain ⟨ht, ⟨k, hk, hsteps⟩, hmore⟩ := ih h
      refine ⟨ht, ⟨k + 1, by omega, (stepMany_succ k hu).trans hsteps⟩, fun m hm => ?_⟩
      obtain ⟨m, rfl⟩ := Nat.exists_eq_add_of_le' (show 1 ≤ m by omega)
      rw [run_succ m hr hu]
      exact hmore m (by omega)
    · rw [run_stopped hr] at h; cases h
      exact ⟨hr, ⟨0, Nat.zero_le _, rfl⟩, fun m _ => run_stopped hr m⟩

/-- Where the fuel gives out the core still runs, after that many steps. -/
theorem run_outOfFuel {n : Nat} {s t : State} (h : run n s = .next (.outOfFuel t)) :
    t.st = .running ∧ stepMany n s = .next t := by
  induction n generalizing s with
  | zero =>
    by_cases hr : s.st = .running
    · rw [run_zero_of_running hr] at h; cases h
      exact ⟨hr, rfl⟩
    · rw [run_stopped hr] at h; cases h
  | succ n ih =>
    by_cases hr : s.st = .running
    · obtain ⟨u, hu⟩ := step_total s
      rw [run_succ n hr hu] at h
      obtain ⟨ht, hsteps⟩ := ih h
      exact ⟨ht, (stepMany_succ n hu).trans hsteps⟩
    · rw [run_stopped hr] at h; cases h

/-- Settles O38: by induction on the fuel. -/
theorem fuelledRunIsTheRun : Obligations.FuelledRunIsTheRun := fun _ _ _ => ⟨run_ended, run_outOfFuel⟩

/-! ### Stores and the next fetch (20_memory.md R40) -/

/-- Settles O37: the step is the fetch and one memory write, and the next fetch reads the memory after it. -/
theorem storesAreSeenByTheNextFetch : Obligations.StoresAreSeenByTheNextFetch := by
  intro s t i q b hr hwf hi hst
  have hb := (hi.operands_le hr.wf).2
  rw [step_of_runs_isStore hr hi] at hst
  cases hst
  have hread : (s.fetch.memWrite b (s.readReg q)).memRead b = s.readReg q :=
    State.memRead_memWrite_self (s := s.fetch) hwf
  refine ⟨rfl, fun hself => ?_, fun hnext => ?_⟩
  · rw [← hself]; exact hread
  · have hpc : (s.fetch.memWrite b (s.readReg q)).pc.toNat = b := (State.fetch_pc_toNat hr.1.2).trans hnext.symm
    have hf : (s.fetch.memWrite b (s.readReg q)).fetches := ⟨hr.1.1, by omega⟩
    have hword : (s.fetch.memWrite b (s.readReg q)).nextWord = s.readReg q := by rw [State.nextWord, hpc, hread]
    obtain ⟨t', ht'⟩ := step_total_of_fetches hf
    exact ⟨hf, hword, t', ht', (step_ir_of_fetches hf ht').trans hword⟩

/-! ### States that differ in cells from 100 on only (20_memory.md R31) -/

theorem sameButMemory_iff {s s' : State} : sameButMemory s s' ↔ ∃ m, s' = { s with mem := m } := by
  constructor
  · rintro ⟨hx, hp, hi, hs, hf⟩
    exact ⟨s'.mem, State.ext_fields rfl hx hp hi hs hf⟩
  · rintro ⟨m, rfl⟩
    exact ⟨rfl, rfl, rfl, rfl, rfl⟩

/-- Nothing but cells from 100 on differs. -/
def sameInReach (s s' : State) : Prop := sameButMemory s s' ∧ ∀ a : Nat, a ≤ 99 → s'.memRead a = s.memRead a

/-- An update that neither reads nor writes the memory keeps the two states equal in reach. -/
theorem sameInReach.map {s s' : State} {f : State → State} (h : sameInReach s s')
    (hf : ∀ s m, f { s with mem := m } = { f s with mem := m }) (hm : ∀ s, (f s).mem = s.mem) :
    sameInReach (f s) (f s') := by
  obtain ⟨hbut, hcells⟩ := h
  refine ⟨?_, fun a ha => ?_⟩
  · obtain ⟨m, rfl⟩ := sameButMemory_iff.mp hbut
    exact sameButMemory_iff.mpr ⟨m, hf s m⟩
  · rw [State.memRead, State.memRead, hm, hm]
    exact hcells a ha

section
variable {s s' : State}

theorem sameInReach.raise (h : sameInReach s s') (c : FaultCause) (a : PcWord) :
    sameInReach (s.raise c a) (s'.raise c a) := h.map (f := (·.raise c a)) (fun _ _ => rfl) fun _ => rfl

theorem sameInReach.raiseAtInstr (h : sameInReach s s') (c : FaultCause) :
    sameInReach (s.raiseAtInstr c) (s'.raiseAtInstr c) := h.map (f := (·.raiseAtInstr c)) (fun _ _ => rfl) fun _ => rfl

theorem sameInReach.halt (h : sameInReach s s') : sameInReach s.halt s'.halt := h.map (fun _ _ => rfl) fun _ => rfl

theorem sameInReach.jumpTo (h : sameInReach s s') (a : Nat) : sameInReach (s.jumpTo a) (s'.jumpTo a) :=
  h.map (f := (·.jumpTo a)) (fun _ _ => rfl) fun _ => rfl

theorem sameInReach.writeReg (h : sameInReach s s') (q : RegName) (v : Word) :
    sameInReach (s.writeReg q v) (s'.writeReg q v) := h.map (f := (·.writeReg q v)) (fun _ _ => rfl) fun _ => rfl

theorem sameInReach.readReg (h : sameInReach s s') (q : RegName) : s'.readReg q = s.readReg q := by
  rw [State.readReg, h.1.1, State.readReg]

/-- The fetch reads a cell of any address, so the fetched word has to be the same. -/
theorem sameInReach.fetch (h : sameInReach s s') (hw : s'.nextWord = s.nextWord) : sameInReach s.fetch s'.fetch := by
  obtain ⟨⟨hx, hp, _, hs, hf⟩, hcells⟩ := h
  exact ⟨⟨hx, by rw [State.fetch_pc, hp, State.fetch_pc], hw, hs, hf⟩, hcells⟩

/-- A write of the same value to both keeps them equal in reach; reading it back needs canonical memories. -/
theorem sameInReach.memWrite (h : sameInReach s s') (hwf : s.mem.wf = true) (hwf' : s'.mem.wf = true) (b : Nat)
    (v : Word) : sameInReach (s.memWrite b v) (s'.memWrite b v) := by
  obtain ⟨hbut, hcells⟩ := h
  refine ⟨hbut, fun a ha => ?_⟩
  by_cases hab : a = b
  · rw [hab, State.memRead_memWrite_self hwf, State.memRead_memWrite_self hwf']
  · rw [State.memRead_memWrite_other s hab, State.memRead_memWrite_other s' hab, hcells a ha]

theorem sameInReach.loadCell (h : sameInReach s s') (o1 : Nat) {o2 : Nat} (h2 : o2 ≤ 99) :
    sameInReach (loadCell o1 o2 s) (loadCell o1 o2 s') := by
  rcases loadCell_cases o1 o2 s with ⟨q, rfl, ha, he⟩ | ⟨hbad, he⟩
  · rw [he, loadCell_of_index q s' ha, h.2 o2 h2]
    exact h.writeReg q _
  · rw [he, loadCell_of_outOfRange s' hbad]
    exact h.raiseAtInstr _

theorem sameInReach.storeCell (h : sameInReach s s') (hwf : s.mem.wf = true) (hwf' : s'.mem.wf = true) (o1 o2 : Nat) :
    sameInReach (storeCell o1 o2 s) (storeCell o1 o2 s') := by
  rcases storeCell_cases o1 o2 s with ⟨q, rfl, ha, he⟩ | ⟨hbad, he⟩
  · rw [he, storeCell_of_index q s' ha, h.readReg q]
    exact h.memWrite hwf hwf' o2 _
  · rw [he, storeCell_of_outOfRange s' hbad]
    exact h.raiseAtInstr _

theorem sameInReach.addRegs (h : sameInReach s s') (o1 o2 : Nat) :
    sameInReach (addRegs o1 o2 s) (addRegs o1 o2 s') := by
  rcases addRegs_cases o1 o2 s with ⟨d, r, rfl, rfl, he⟩ | ⟨hbad, he⟩
  · rw [he, addRegs_of_index d r s', h.readReg d, h.readReg r]
    exact h.writeReg d _
  · rw [he, addRegs_of_gt s' hbad]
    exact h.raiseAtInstr _

variable {t t' : State}

/-- A decoded instruction reads no cell from 100 on. -/
theorem sameInReach.exec {i : Instr} (h : sameInReach s s') (hwf : s.mem.wf = true) (hwf' : s'.mem.wf = true)
    (hi : i.wf = true) (he : exec i s = .next t) (he' : exec i s' = .next t') : sameInReach t t' := by
  rcases instr_cases i with rfl | ⟨r, a, hc⟩ | ⟨r, a, hc⟩ | ⟨d, r, hc⟩ | ⟨u, a, hc⟩
  · cases he; cases he'; exact h.halt
  · rw [exec_isLoad hc] at he he'; cases he; cases he'
    exact h.loadCell r (hc.operands_le hi).2
  · rw [exec_isStore hc] at he he'; cases he; cases he'
    exact h.storeCell hwf hwf' r a
  · rw [exec_isAdd hc] at he he'; cases he; cases he'
    exact h.addRegs d r
  · rw [exec_isJump hc] at he he'; cases he; cases he'
    exact h.jumpTo a

/-- No step reads a cell from 100 on but by its fetch. -/
theorem sameInReach.step (h : sameInReach s s') (hwf : s.mem.wf = true) (hwf' : s'.mem.wf = true)
    (hw : s'.nextWord = s.nextWord) (hst : step s = .next t) (hst' : step s' = .next t') : sameInReach t t' := by
  have ⟨⟨_, hpc, _, hrun, _⟩, _⟩ := h
  rcases step_cases s with ⟨hns, he⟩ | ⟨hr, hb, he⟩ | ⟨hf, hu, _⟩ | ⟨i, hi, he⟩
  · rw [he] at hst; cases hst
    rw [step_stopped (hrun ▸ hns)] at hst'; cases hst'
    exact h
  · rw [he] at hst; cases hst
    rw [step_outOfBounds (hrun.trans hr) (hpc ▸ hb), hpc] at hst'; cases hst'
    exact h.raise _ _
  · have hf' : s'.fetches := ⟨hrun.trans hf.1, hpc ▸ hf.2⟩
    have hill := (decode_isUnknown_iff_isIllegal _).mp hu
    rw [step_of_isIllegal hf hill] at hst; cases hst
    rw [step_of_isIllegal hf' (hw ▸ hill)] at hst'; cases hst'
    exact (h.fetch hw).raiseAtInstr _
  · have hi' : s'.runs i := ⟨⟨hrun.trans hi.1.1, hpc ▸ hi.1.2⟩, hw ▸ hi.2⟩
    rw [he] at hst
    rw [step_of_runs hi'] at hst'
    exact (h.fetch hw).exec hwf hwf' hi.wf hst hst'

end

/-- No step changes a cell from 100 on: a decoded STORE names 0 to 99. -/
theorem step_memRead_from_100 {s t : State} {a : Nat} (hst : step s = .next t) (ha : 100 ≤ a) :
    t.memRead a = s.memRead a := by
  by_contra hne
  obtain ⟨i, r, hr, hi⟩ := step_memRead_changed hst hne
  have := (hi.operands_le hr.wf).2
  omega

/-- Settles O35: decoded operands are at most 99, and no operation reads a cell but the one an operand names. -/
theorem reachOfDataAccesses : Obligations.ReachOfDataAccesses := by
  refine ⟨fun s t a => step_memRead_from_100, fun s t i u a hr hj hst => ?_, ?_⟩
  · rw [exec_pc_of_jump ((step_of_runs hr).symm.trans hst) hj hr.wf]
    exact hj.target_le hr.wf
  · intro s s' t t' hwf hwf' hbut hcells hw hst hst'
    exact sameInReach.step ⟨hbut, hcells⟩ hwf hwf' hw hst hst'

end Sys2Proof.Machine
end

section
/-! PROOFS. The statements about reset, images and the status register (70_reset_and_hazards.md R160, R163;
10_state.md R17), and about the assembler (30_encoding.md R74, R75), and what they need: which images are refused, and
that a line's word is a composition. -/

namespace Sys2Proof.Machine

/-! ### Reset and the status register -/

/-- Settles O39: every register and every cell reads as 0 at reset. -/
theorem resetState : Obligations.ResetState :=
  ⟨rfl, rfl, rfl, rfl, State.reset_readReg, fun _ => rfl, rfl⟩

theorem statusRegister_stateCode (st : RunState) : (statusRegister st).extractLsb' 0 2 = stateCode st :=
  BitVec.extractLsb'_append_eq_right

theorem statusRegister_causeCode (st : RunState) : (statusRegister st).extractLsb' 2 2 = causeCode st :=
  BitVec.extractLsb'_append_eq_left

/-- Settles O43: the two codes are the halves of the status register, and a cause is given in Faulted only. -/
theorem statusRegisterCodes : Obligations.StatusRegisterCodes := by
  refine ⟨rfl, rfl, rfl, rfl, rfl, fun st => ?_⟩
  rw [statusRegister_stateCode, statusRegister_causeCode]
  cases st with
  | running => decide
  | halted => decide
  | faulted c => cases c <;> decide

/-! ### Images of integers (R163) -/

theorem fitsCell_iff (v : Int) : fitsCell v = true ↔ cellMin ≤ v ∧ v ≤ cellMax := by simp [fitsCell]

theorem imageOfInts_cons_of_fits {v : Int} (vs : List Int) (h : fitsCell v = true) :
    imageOfInts (v :: vs) = (imageOfInts vs).map (wrap v :: ·) := if_pos h

theorem imageOfInts_cons_of_not_fits {v : Int} (vs : List Int) (h : ¬ fitsCell v = true) :
    imageOfInts (v :: vs) = none := if_neg h

/-- An image is refused exactly when an integer of it fits no cell. -/
theorem imageOfInts_eq_none_iff (vs : List Int) : imageOfInts vs = none ↔ ∃ v, v ∈ vs ∧ ¬ fitsCell v = true := by
  induction vs with
  | nil => simp [imageOfInts]
  | cons v vs ih =>
    by_cases hv : fitsCell v = true
    · rw [imageOfInts_cons_of_fits vs hv, Option.map_eq_none_iff, ih]
      simp [hv]
    · rw [imageOfInts_cons_of_not_fits vs hv]
      simp [hv]

/-- The cells of an image that is not refused have the values of the integers. -/
theorem map_toInt_imageOfInts {vs : List Int} {ws : List Word} (h : imageOfInts vs = some ws) :
    ws.map BitVec.toInt = vs := by
  induction vs generalizing ws with
  | nil => cases h; rfl
  | cons v vs ih =>
    by_cases hv : fitsCell v = true
    · rw [imageOfInts_cons_of_fits vs hv, Option.map_eq_some_iff] at h
      obtain ⟨us, hus, rfl⟩ := h
      have hfit := (fitsCell_iff v).mp hv
      rw [List.map_cons, ih hus, toInt_wrap_of_fits hfit.1 hfit.2]
    · rw [imageOfInts_cons_of_not_fits vs hv] at h
      cases h

/-- Settles O42: by induction on the image; the wrap changes no integer that fits. -/
theorem imagesOfIntegers : Obligations.ImagesOfIntegers := by
  refine fun vs => ⟨?_, fun ws => map_toInt_imageOfInts⟩
  simp only [imageOfInts_eq_none_iff, fitsCell_iff, not_and_or, not_le]

/-! ### The assembler's words (30_encoding.md R74) -/

namespace Asm

/-- The line of a mnemonic other than HALT composes a word only of operands in range. -/
theorem composeLine_eq_word {missing n : Nat} {m : Mnemonic} {ops : List (List Char)} (hm : m ≠ .halt)
    (h : composeLine missing m ops = .word n) : ∃ o1 o2, composable m o1 o2 = true ∧ n = compose m o1 o2 := by
  rw [composeLine, if_neg hm] at h
  split at h
  · next o1 o2 _ _ =>
    split at h
    · next hc => cases h; exact ⟨o1, o2, hc, rfl⟩
    · cases h
  · cases h

/-- HALT's word is 0, which is not written. -/
theorem composeLine_halt_emitted (missing : Nat) (ops : List (List Char)) :
    (composeLine missing .halt ops).emitted = none := rfl

/-- A line composes its word from a mnemonic it names. -/
theorem assembleLine_eq_word {cfg : Config.Asm} {line : List Char} {n : Nat} (h : assembleLine cfg line = .word n) :
    ∃ m ops, composeLine cfg.missingOperand m ops = .word n := by
  unfold assembleLine at h
  split at h
  · cases h
  · split at h
    · cases h
    · exact ⟨_, _, h⟩

theorem emitted_eq_some {r : LineResult} {w : Word} (h : r.emitted = some w) :
    ∃ n, r = .word n ∧ n ≠ 0 ∧ w = BitVec.ofNat 32 n := by
  cases r with
  | word n =>
    rw [LineResult.emitted] at h
    split at h
    · cases h
    · next hn => cases h; exact ⟨n, rfl, hn, rfl⟩
  | skipped => cases h
  | unrecognizedMnemonic => cases h
  | refused => cases h

/-- An emitted word is the composition of a mnemonic other than HALT with operands in range. -/
theorem exists_compose_of_mem_emittedWords {cfg : Config.Asm} {lines : List (List Char)} {w : Word}
    (h : w ∈ emittedWords cfg lines) :
    ∃ m o1 o2, m ≠ .halt ∧ composable m o1 o2 = true ∧ w = BitVec.ofNat 32 (compose m o1 o2) := by
  obtain ⟨line, _, hw⟩ := List.mem_filterMap.mp h
  obtain ⟨n, hline, hn, rfl⟩ := emitted_eq_some hw
  obtain ⟨m, ops, hm⟩ := assembleLine_eq_word hline
  have hne : m ≠ .halt := by
    rintro rfl
    cases hm
    exact hn rfl
  obtain ⟨o1, o2, hc, rfl⟩ := composeLine_eq_word hne hm
  exact ⟨m, o1, o2, hne, hc, rfl⟩

theorem canonical_cases {m : Mnemonic} (hm : m ≠ .halt) (o1 o2 : Nat) :
    m.canonical o1 o2 = .load o1 o2 ∨ m.canonical o1 o2 = .store o1 o2 ∨ m.canonical o1 o2 = .add o1 o2 ∨
      m.canonical o1 o2 = .jump o1 o2 := by
  cases m with
  | halt => exact absurd rfl hm
  | load => exact .inl rfl
  | store => exact .inr (.inl rfl)
  | add => exact .inr (.inr (.inl rfl))
  | jump => exact .inr (.inr (.inr rfl))

end Asm

theorem decode_zero : decode 0 = .instr .halt := (decode_eq_halt_iff 0).mpr rfl

/-- Settles O44: an emitted word is a composition, which decodes to its canonical instruction. -/
theorem assemblerEmitsCanonicalWords : Obligations.AssemblerEmitsCanonicalWords := by
  refine ⟨fun cfg lines w hw => ?_, Asm.composeLine_halt_emitted, rfl, rfl⟩
  obtain ⟨m, o1, o2, hm, hc, rfl⟩ := Asm.exists_compose_of_mem_emittedWords hw
  have hd := Asm.decode_compose hc
  have hcanon := Asm.canonical_cases hm o1 o2
  refine ⟨fun h0 => ?_, _, hd, decode_wf hd, o1, o2, hcanon⟩
  rw [h0, decode_zero, Decoded.instr.injEq] at hd
  simp [← hd] at hcanon

/-! ### The post-pass (30_encoding.md R75) -/

namespace Asm

section
variable {cfg : Config.Asm} {ws : List Word} {a : Nat}

theorem postPass_length (h : ws.length ≤ cfg.dataStart) :
    (postPass cfg ws).length = cfg.dataStart + cfg.fixture.length := by
  simp only [postPass, List.length_append, List.length_replicate]
  omega

/-- The emitted words keep their addresses. -/
theorem postPass_getElem?_emitted (h : a < ws.length) : (postPass cfg ws)[a]? = ws[a]? := by
  rw [postPass, List.append_assoc, List.getElem?_append_left h]

/-- From the emitted words to the data start the cells are 0. -/
theorem postPass_getElem?_pad (hlo : ws.length ≤ a) (hhi : a < cfg.dataStart) : (postPass cfg ws)[a]? = some 0 := by
  rw [postPass, List.append_assoc, List.getElem?_append_right hlo,
    List.getElem?_append_left (by rw [List.length_replicate]; omega), List.getElem?_replicate_of_lt (by omega)]

/-- The fixture stands at the data start. -/
theorem postPass_getElem?_fixture (h : ws.length ≤ cfg.dataStart) (k : Nat) :
    (postPass cfg ws)[cfg.dataStart + k]? = cfg.fixture[k]? := by
  have hlen : (ws ++ List.replicate (cfg.dataStart - ws.length) (0 : Word)).length = cfg.dataStart := by
    rw [List.length_append, List.length_replicate]
    omega
  rw [postPass, List.getElem?_append_right (by omega), hlen, Nat.add_sub_cancel_left]

/-- Past the data start there is no pad. -/
theorem postPass_of_long (h : cfg.dataStart ≤ ws.length) : postPass cfg ws = ws ++ cfg.fixture := by
  rw [postPass, Nat.sub_eq_zero_of_le h, List.replicate_zero, List.append_nil]

end

end Asm

/-- Settles O45: the emitted words, the pad and the fixture by their positions. -/
theorem assemblerPadsAndAppendsTheFixture : Obligations.AssemblerPadsAndAppendsTheFixture := by
  refine fun c m ws => ⟨fun h => ?_, fun h => Asm.postPass_of_long (Nat.le_of_lt h)⟩
  exact ⟨Asm.postPass_length h, fun a => Asm.postPass_getElem?_emitted,
    fun a => Asm.postPass_getElem?_pad (cfg := ⟨c, m, 20, [10, 5, 0]⟩),
    Asm.postPass_getElem?_fixture h 0, Asm.postPass_getElem?_fixture h 1, Asm.postPass_getElem?_fixture h 2⟩

end Sys2Proof.Machine
end
